-- ==== Sys2Proof/Word.lean ====
section
/-! DEFINITION. The word types of the machine (spec 00_scope.md R6, 10_state.md R14, R19, R25). -/

namespace Sys2Proof

/-- One byte of the program text. -/
abbrev Byte := BitVec 8

/-- One A64 instruction word (R48). -/
abbrev Word := BitVec 32

/-- A 64-bit address, and the width of `pc`, `FPCR` and `FPSR` (R23, R24, R25). -/
abbrev Word64 := BitVec 64

/-- The container of one scalable vector register: the architectural maximum of 2048 bits (R14).
The register's value is its low VL bits (R15); the bits above hold zero. -/
abbrev ZVal := BitVec 2048

/-- The container of one scalable predicate register: the architectural maximum of 256 bits (R19).
The register's value is its low PL bits. -/
abbrev PVal := BitVec 256

end Sys2Proof
end

