-- ==== Sys2Proof/Config.lean ====
section
/-! DEFINITION. The parameters of a run (spec 00_scope.md R4): what an implementation fixes. They are plain data, fixed
for a whole run; the state carries them unchanged so that a claim about every state is a claim about every
configuration. A parameter that is a function is named by plain data: its intended value, or the number of an
uninterpreted function (log entry 15). -/

namespace Sys2Proof

namespace Machine

/-- The values of `FPRounding` that FRINT<r> uses (R9). `FPRounding_ODD`, which `FPRoundInt` must never receive, has no
constructor, so it cannot be passed. -/
inductive Rounding where
  | tieEven | tieAway | zero | negInf | posInf
deriving DecidableEq, Repr, Inhabited

/-- The floating-point exception conditions of R102. -/
inductive FpExc where
  | invalidOp | divideByZero | overflow | underflow | inexact | inputDenorm
deriving DecidableEq, Repr

end Machine

/-- The Exception levels EL0 to EL3 (R29, R118). -/
inductive ExceptionLevel where
  | el0 | el1 | el2 | el3
deriving DecidableEq, Repr

/-- The trap kinds `CheckSVEEnabled()` can report (R108, R111). -/
inductive AccessTrap where
  /-- `SVEAccessTrap`. -/
  | sve
  /-- `SMEAccessTrap(smtc)`, with the value `smtc` recorded. -/
  | sme (smtc : BitVec 3)
  /-- `FPAccessTrap`. -/
  | fp
deriving DecidableEq, Repr

/-- The registers the architecture's `CheckSVEEnabled()` consults (R29). R29 and R118 keep them inside the parameter
`SveAccess`, and so does the model. -/
structure AccessRegs where
  /-- `PSTATE.EL`. -/
  el : ExceptionLevel
  /-- `PSTATE.SM`. -/
  sm : Bool
  /-- `CPACR_EL1`: ZEN 17:16, FPEN 21:20, SMEN 25:24. -/
  cpacrEl1 : Word64
  /-- `CPTR_EL2`: ZEN, FPEN, SMEN, or TZ (8), TFP (10), TSM (12), by `HCR_EL2.E2H`. -/
  cptrEl2 : Word64
  /-- `CPTR_EL3`: EZ (8), TFP (10), ESM (12). -/
  cptrEl3 : Word64
  /-- `HCR_EL2.E2H`. -/
  e2h : Bool
  /-- `HCR_EL2.TGE`. -/
  tge : Bool
  /-- Whether EL2 is enabled in the current security state ("EL2 enabled" of R109). -/
  el2Enabled : Bool
deriving DecidableEq, Repr

/-- The parameter `SveAccess` (R4, R108): a function of the state to `Enabled` or a trap kind. -/
inductive SveAccess where
  /-- The constant `Enabled`, the default (R108). -/
  | enabled
  /-- A constant trap. -/
  | trap (k : AccessTrap)
  /-- The architecture's check of R109 over the registers of R29. -/
  | registers (r : AccessRegs)
  /-- The uninterpreted function of the state numbered `n` (D4): `Config.freeSveAccess n`. -/
  | ofState (n : Nat)
deriving DecidableEq, Repr

/-- The value of a parameter that is a function (R4, D16). -/
inductive FunctionValue where
  /-- The function the spec intends. -/
  | intended
  /-- The uninterpreted function numbered `n`. -/
  | free (n : Nat)
deriving DecidableEq, Repr

/-- `FPRoundInt` as R4 and D16 leave it: any total function of element, `FPCR`, rounding and `exact` to a result and the
conditions signalled. -/
opaque Config.freeFpRoundInt (n w : Nat) (op : BitVec w) (fpcr : Word64) (r : Machine.Rounding) (exact : Bool) :
    BitVec w × List Machine.FpExc

/-- `FPRoundingMode` as R4 and D16 leave it: any total function of `FPCR`. -/
opaque Config.freeFpRoundingMode (n : Nat) (fpcr : Word64) : Machine.Rounding

/-- The parameter set of R4. -/
structure Config where
  /-- The vector length is `(len + 1) * 128` bits, every multiple of 128 from 128 to 2048 (R4, R28). -/
  len : Fin 16
  featSve : Bool
  featSme : Bool
  featSve2p2 : Bool
  featSme2p2 : Bool
  /-- Whether `FPCR.AH` and `FPCR.FIZ` exist. -/
  featAfp : Bool
  /-- `FP_TRAPS_IMPLEMENTED`. -/
  fpTraps : Bool
  sveAccess : SveAccess
  /-- `FPRoundInt`; its intended value is R98. -/
  fpRoundInt : FunctionValue
  /-- `FPRoundingMode`; its intended value is R97. -/
  fpRoundingMode : FunctionValue
deriving DecidableEq, Repr

/-- `VL`, the value of `CurrentVL` in bits (R4, R27). -/
def Config.vl (c : Config) : Nat := (c.len.val + 1) * 128

/-- `PL = VL DIV 8` (R5). -/
def Config.pl (c : Config) : Nat := c.vl / 8

/-- The configuration `State.reset` carries: the one the spec's own examples use (40_frint.md, template paragraph),
with every feature pair present. DESIGN CHOICE (log entry 3); FEAT_AFP, FP_TRAPS_IMPLEMENTED and SveAccess are the
spec's defaults (R4, D4, D9, D10), and the two functions have their intended values (D16). -/
def Config.atReset : Config where
  len := 0
  featSve := true
  featSme := true
  featSve2p2 := true
  featSme2p2 := true
  featAfp := false
  fpTraps := false
  sveAccess := .enabled
  fpRoundInt := .intended
  fpRoundingMode := .intended

end Sys2Proof
end

