-- ==== Sys2Proof/Syntax.lean ====
section
/-! DEFINITION. The 14 instructions (spec 30_encoding.md R61, opcode_table.json): one constructor per row, `M` for the
merging class and `Z` for the zeroing class. Operands stand in the order of the assembler template
`<Zd>.<T>, <Pg>/<M or Z>, <Zn>.<T>`, after the size specifier `<T>`. -/

namespace Sys2Proof

/-- The size specifier `<T>`, encoded in `size` (R53, R62). -/
inductive Size where
  /-- `size == '00'`: no assembler spelling; executing it is UNDEFINED (R53, R56). -/
  | reserved
  /-- `size == '01'`. -/
  | h
  /-- `size == '10'`. -/
  | s
  /-- `size == '11'`. -/
  | d
deriving DecidableEq, Repr

inductive Instr where
  /-- `FRINTX <Zd>.<T>, <Pg>/M, <Zn>.<T>` (R73). -/
  | frintxM (t : Size) (zd : Fin 32) (pg : Fin 8) (zn : Fin 32)
  /-- `FRINTX <Zd>.<T>, <Pg>/Z, <Zn>.<T>` (R74). -/
  | frintxZ (t : Size) (zd : Fin 32) (pg : Fin 8) (zn : Fin 32)
  /-- `FRINTI <Zd>.<T>, <Pg>/M, <Zn>.<T>` (R75). -/
  | frintiM (t : Size) (zd : Fin 32) (pg : Fin 8) (zn : Fin 32)
  /-- `FRINTI <Zd>.<T>, <Pg>/Z, <Zn>.<T>` (R76). -/
  | frintiZ (t : Size) (zd : Fin 32) (pg : Fin 8) (zn : Fin 32)
  /-- `FRINTA <Zd>.<T>, <Pg>/M, <Zn>.<T>` (R77). -/
  | frintaM (t : Size) (zd : Fin 32) (pg : Fin 8) (zn : Fin 32)
  /-- `FRINTA <Zd>.<T>, <Pg>/Z, <Zn>.<T>` (R78). -/
  | frintaZ (t : Size) (zd : Fin 32) (pg : Fin 8) (zn : Fin 32)
  /-- `FRINTN <Zd>.<T>, <Pg>/M, <Zn>.<T>` (R79). -/
  | frintnM (t : Size) (zd : Fin 32) (pg : Fin 8) (zn : Fin 32)
  /-- `FRINTN <Zd>.<T>, <Pg>/Z, <Zn>.<T>` (R80). -/
  | frintnZ (t : Size) (zd : Fin 32) (pg : Fin 8) (zn : Fin 32)
  /-- `FRINTZ <Zd>.<T>, <Pg>/M, <Zn>.<T>` (R81). -/
  | frintzM (t : Size) (zd : Fin 32) (pg : Fin 8) (zn : Fin 32)
  /-- `FRINTZ <Zd>.<T>, <Pg>/Z, <Zn>.<T>` (R82). -/
  | frintzZ (t : Size) (zd : Fin 32) (pg : Fin 8) (zn : Fin 32)
  /-- `FRINTM <Zd>.<T>, <Pg>/M, <Zn>.<T>` (R83). -/
  | frintmM (t : Size) (zd : Fin 32) (pg : Fin 8) (zn : Fin 32)
  /-- `FRINTM <Zd>.<T>, <Pg>/Z, <Zn>.<T>` (R84). -/
  | frintmZ (t : Size) (zd : Fin 32) (pg : Fin 8) (zn : Fin 32)
  /-- `FRINTP <Zd>.<T>, <Pg>/M, <Zn>.<T>` (R85). -/
  | frintpM (t : Size) (zd : Fin 32) (pg : Fin 8) (zn : Fin 32)
  /-- `FRINTP <Zd>.<T>, <Pg>/Z, <Zn>.<T>` (R86). -/
  | frintpZ (t : Size) (zd : Fin 32) (pg : Fin 8) (zn : Fin 32)
deriving DecidableEq, Repr

/-- The size specifier `<T>`, written on both vector operands (R62). -/
def Instr.size : Instr → Size
  | .frintxM t _ _ _ | .frintxZ t _ _ _ | .frintiM t _ _ _ | .frintiZ t _ _ _
  | .frintaM t _ _ _ | .frintaZ t _ _ _ | .frintnM t _ _ _ | .frintnZ t _ _ _
  | .frintzM t _ _ _ | .frintzZ t _ _ _ | .frintmM t _ _ _ | .frintmZ t _ _ _
  | .frintpM t _ _ _ | .frintpZ t _ _ _ => t

/-- The destination register number `d` (R54). -/
def Instr.zd : Instr → Fin 32
  | .frintxM _ d _ _ | .frintxZ _ d _ _ | .frintiM _ d _ _ | .frintiZ _ d _ _
  | .frintaM _ d _ _ | .frintaZ _ d _ _ | .frintnM _ d _ _ | .frintnZ _ d _ _
  | .frintzM _ d _ _ | .frintzZ _ d _ _ | .frintmM _ d _ _ | .frintmZ _ d _ _
  | .frintpM _ d _ _ | .frintpZ _ d _ _ => d

/-- The governing predicate register number `g` (R54). -/
def Instr.pg : Instr → Fin 8
  | .frintxM _ _ g _ | .frintxZ _ _ g _ | .frintiM _ _ g _ | .frintiZ _ _ g _
  | .frintaM _ _ g _ | .frintaZ _ _ g _ | .frintnM _ _ g _ | .frintnZ _ _ g _
  | .frintzM _ _ g _ | .frintzZ _ _ g _ | .frintmM _ _ g _ | .frintmZ _ _ g _
  | .frintpM _ _ g _ | .frintpZ _ _ g _ => g

/-- The source register number `n` (R54). -/
def Instr.zn : Instr → Fin 32
  | .frintxM _ _ _ n | .frintxZ _ _ _ n | .frintiM _ _ _ n | .frintiZ _ _ _ n
  | .frintaM _ _ _ n | .frintaZ _ _ _ n | .frintnM _ _ _ n | .frintnZ _ _ _ n
  | .frintzM _ _ _ n | .frintzZ _ _ _ n | .frintmM _ _ _ n | .frintmZ _ _ _ n
  | .frintpM _ _ _ n | .frintpZ _ _ _ n => n

end Sys2Proof
end

