-- ==== Sys2Proof/Machine/State.lean ====
section
/-! DEFINITION. The state of the machine (spec 10_state.md R12), the exceptions it can raise (60_exceptions.md R111), the
reasons a step does not happen, and the state after reset (R33; log entries 1 to 5). -/

namespace Sys2Proof.Machine

/-- The exceptions an instruction of the machine can raise, with the value recorded (R111). Raising one sets the fault
mark and changes nothing else (R114). -/
inductive Raised where
  /-- `UndefinedInstruction(w)` (R106, R107). -/
  | undefinedInstruction (w : Word)
  /-- `SVEAccessTrap`, `SMEAccessTrap(smtc)` or `FPAccessTrap` (R108). -/
  | accessTrap (k : AccessTrap)
deriving DecidableEq, Repr

/-- Why a step has no next state although nothing is refused: raised by `step` alone, never by an instruction's
meaning. The host's interface has no outcome 'stuck', so the stuck states of R38 stand here under their own names. -/
inductive Fault where
  /-- The fault mark is set: an earlier instruction raised `e`, and no further step exists (R114). Safe. -/
  | stoppedByMark (e : Raised)
  /-- Stuck: `pc` is not a multiple of 4 (R38; the architecture's PC alignment fault). Safe. -/
  | stuckPcMisaligned
  /-- Stuck: the program text has no word at `pc` (R38; the architecture's Instruction Abort). Safe. -/
  | stuckNoWord
deriving DecidableEq, Repr

/-- What the model gives no meaning, by name. -/
inductive Refusal where
  /-- An instruction of the opcode table without a meaning yet; raised by no arm of this model. Safe. -/
  | notModelled (mnemonic : String)
  /-- "not an FRINT<r> (predicated) encoding": the word at `pc` matches none of the 14 rows (R57, R60); raised by `step`.
  Safe. -/
  | notFrintEncoding (w : Word)
  /-- A floating-point condition whose trap is implemented and enabled: what the trap reports is IMPLEMENTATION DEFINED
  (R102, R110); the conditions of the instruction's elements in order; raised by every meaning. Safe. -/
  | trappedFpException (conditions : List FpExc)
  /-- `pc + 4` does not fit in 64 bits (R25); raised by every meaning when it completes. Safe. -/
  | pcWrap
deriving DecidableEq, Repr

/-- The program text as (address, byte) pairs: a finite partial map (R36), bytes in fetch order (R37). -/
abbrev Memory := List Host.Cell

/-- The canonical form: addresses strictly rising, each a 64-bit address. An unlisted address holds no byte (R36, R38). -/
abbrev Memory.wf (m : Memory) : Prop :=
  m.Pairwise (fun a b => a.1 < b.1) ∧ ∀ c ∈ m, c.1 < 2 ^ 64

/-- The state: the tuple of R12, FFR (R19), the condition flags and general registers that R21 and R26 say are
untouched (log entry 2), and the run's configuration and program text (R4, R12; log entry 3). -/
structure State where
  /-- The parameters of R4, fixed for the run. -/
  cfg : Config
  /-- The program text, immutable for the run (R36, R46). -/
  text : Memory
  /-- `Z[0..31]`, each VL bits, zero above VL (R14, R15). -/
  z : Vector ZVal 32
  /-- `P[0..15]`, each PL bits, zero above PL (R19). -/
  p : Vector PVal 16
  /-- The first-fault register, PL bits (R19). -/
  ffr : PVal
  /-- `FPCR` (R23). -/
  fpcr : Word64
  /-- `FPSR` (R24). -/
  fpsr : Word64
  /-- The program counter (R25). -/
  pc : Word64
  /-- The fault mark (R12, R114): clear, or the exception raised. -/
  mark : Option Raised
  /-- The condition flags N, Z, C, V of `PSTATE` (R21). -/
  nzcv : BitVec 4
  /-- The general registers X0 to X30 (R26). -/
  x : Vector Word64 31
  /-- The stack pointers, one per Exception level (R26). -/
  sp : Vector Word64 4
deriving DecidableEq, Repr

/-- The machine right after reset. R33 gives the fault mark clear and every register "any value"; the zeros are the
model's DESIGN CHOICE (log entries 1, 2), the configuration is `Config.atReset` (log entry 3), and no program text is
placed (log entry 5). -/
def State.reset : State where
  cfg := Config.atReset
  text := []
  z := Vector.replicate 32 0#2048
  p := Vector.replicate 16 0#256
  ffr := 0#256
  fpcr := 0#64
  fpsr := 0#64
  pc := 0#64
  mark := none
  nzcv := 0#4
  x := Vector.replicate 31 0#64
  sp := Vector.replicate 4 0#64

end Sys2Proof.Machine
end

