-- ==== Sys2Proof/Machine/Flags.lean ====
section
/-! DEFINITION. The fields of FPCR and FPSR (spec 10_state.md R23, R24), and the floating-point exception conditions
with their cumulative and enable bits (41_fp_numerics.md R102). -/

namespace Sys2Proof.Machine

/-- `FPCR.DN`, bit 25 (R23). -/
def fpcrDN (fpcr : Word64) : Bool := fpcr.getLsbD 25

/-- `FPCR.FZ`, bit 24 (R23). -/
def fpcrFZ (fpcr : Word64) : Bool := fpcr.getLsbD 24

/-- `FPCR.RMode`, bits 23:22 (R23). -/
def fpcrRMode (fpcr : Word64) : BitVec 2 := fpcr.extractLsb' 22 2

/-- `FPCR.FZ16`, bit 19 (R23). -/
def fpcrFZ16 (fpcr : Word64) : Bool := fpcr.getLsbD 19

/-- `FPCR.AH`, bit 1 (R23). -/
def fpcrAH (fpcr : Word64) : Bool := fpcr.getLsbD 1

/-- `FPCR.FIZ`, bit 0 (R23). -/
def fpcrFIZ (fpcr : Word64) : Bool := fpcr.getLsbD 0

/-- The number of a condition's cumulative bit in `FPSR` (R102). -/
def FpExc.cumulativeBit : FpExc → Nat
  | .invalidOp => 0
  | .divideByZero => 1
  | .overflow => 2
  | .underflow => 3
  | .inexact => 4
  | .inputDenorm => 7

/-- The number of a condition's trap enable bit in `FPCR` (R102). -/
def FpExc.enableBit : FpExc → Nat
  | .invalidOp => 8
  | .divideByZero => 9
  | .overflow => 10
  | .underflow => 11
  | .inexact => 12
  | .inputDenorm => 15

/-- The union of the cumulative bits of a list of conditions: the `flags` of R71. -/
def fpFlags : List FpExc → Word64
  | [] => 0#64
  | e :: rest => BitVec.twoPow 64 e.cumulativeBit ||| fpFlags rest

/-- The trapped arm of `FPProcessException` (R102) for some condition of the list: traps are implemented and the
condition's enable bit is 1. -/
def fpTrapTaken (c : Config) (fpcr : Word64) (conditions : List FpExc) : Bool :=
  c.fpTraps && conditions.any fun e => fpcr.getLsbD e.enableBit

/-- The RES0 bits of `FPCR` (R23), and bits 2:0 unless FEAT_AFP (R33). -/
def fpcrRes0 (c : Config) : Word64 :=
  if c.featAfp then 0xFFFFFFFFF80040F8#64 else 0xFFFFFFFFF80040FF#64

/-- The RES0 bits of `FPSR` (R24): 63:32, 26:8, 6:5. -/
def fpsrRes0 : Word64 := 0xFFFFFFFF07FFFF60#64

/-- The cumulative bits FRINT<r> can set: IDC, IXC, IOC (R24, R32). -/
def frintFlagMask : Word64 := 0x91#64

end Sys2Proof.Machine
end

