-- ==== Sys2Proof/Machine/Numerics.lean ====
section
/-! DEFINITION. Floating-point numerics (spec 41_fp_numerics.md R95 to R102): formats and classes, exact values,
`FPUnpack`, `FPRoundingMode`, `FPRoundInt`, `FPProcessNaN`, and at the end the two functions as the configuration gives
them (R4, 92_eei_decisions.md D16): their intended values R98 and R97, or an uninterpreted function (log entries 6, 15).
Values are exact: a finite value is an integer over a power of two, never rounded (R10, R105). -/

namespace Sys2Proof.Machine

/-- The three formats of FRINT<r> (R95). -/
inductive Format where
  /-- binary16. -/
  | half
  /-- binary32. -/
  | single
  /-- binary64. -/
  | double
deriving DecidableEq, Repr

/-- `esize`, the width N of the format (R53, R95). -/
@[reducible] def Format.width : Format → Nat
  | .half => 16
  | .single => 32
  | .double => 64

/-- E, the exponent bits (R95). -/
def Format.expBits : Format → Nat
  | .half => 5
  | .single => 8
  | .double => 11

/-- F, the fraction bits (R95). -/
def Format.fracBits : Format → Nat
  | .half => 10
  | .single => 23
  | .double => 52

/-- The exponent bias (R95). -/
def Format.bias : Format → Nat
  | .half => 15
  | .single => 127
  | .double => 1023

/-- The element format a size specifier selects; none for RESERVED (R53). -/
def formatOfSize : Size → Option Format
  | .reserved => none
  | .h => some .half
  | .s => some .single
  | .d => some .double

/-- The exponent field, read as an unsigned integer (R95). -/
def expField (f : Format) (op : BitVec f.width) : Nat := (op.extractLsb' f.fracBits f.expBits).toNat

/-- The fraction field, read as an unsigned integer (R95). -/
def fracField (f : Format) (op : BitVec f.width) : Nat := (op.extractLsb' 0 f.fracBits).toNat

/-- The six classes of R95. -/
inductive FpType where
  | zero | denormal | nonzero | infinity | qnan | snan
deriving DecidableEq, Repr

/-- The class of an element (R95). -/
def classify (f : Format) (op : BitVec f.width) : FpType :=
  if expField f op = 0 then
    if fracField f op = 0 then .zero else .denormal
  else if expField f op = 2 ^ f.expBits - 1 then
    if fracField f op = 0 then .infinity
    else if op.getLsbD (f.fracBits - 1) then .qnan else .snan
  else .nonzero

/-- An exact value: the number `num / 2^scale` (R10). -/
structure Exact where
  num : Int
  scale : Nat
deriving DecidableEq, Repr

/-- The value of a Zero, Denormal or Nonzero element (R95): `(-1)^s * m * 2^q` with `m` the significand as an integer
and `q` the exponent of its last place. -/
def exactValue (f : Format) (op : BitVec f.width) : Exact :=
  let m : Int := if expField f op = 0 then fracField f op else 2 ^ f.fracBits + fracField f op
  let q : Int := (if expField f op = 0 then 1 else (expField f op : Int)) - f.bias - f.fracBits
  { num := (if op.msb then -m else m) * 2 ^ q.toNat, scale := (-q).toNat }

/-- `RoundDown(value)`: the largest integer not above the value (R10). -/
def Exact.roundDown (v : Exact) : Int := v.num / 2 ^ v.scale

/-- `error = value - RoundDown(value)` in units of `2^-scale`: 0 or more, and below `2^scale` (R98). -/
def Exact.error (v : Exact) : Int := v.num % 2 ^ v.scale

/-- `FPRoundingMode(fpcr)` (R97). -/
def fpRoundingMode (fpcr : Word64) : Rounding :=
  if fpcrRMode fpcr = 0b00#2 then .tieEven
  else if fpcrRMode fpcr = 0b01#2 then .posInf
  else if fpcrRMode fpcr = 0b10#2 then .negInf
  else .zero

/-- `round_up` of R98. `2 * error` is compared with `2^scale`, that is `error` with one half. -/
def roundsUp (r : Rounding) (v : Exact) : Bool :=
  match r with
  | .tieEven => decide (2 * v.error > 2 ^ v.scale) ||
      (decide (2 * v.error = 2 ^ v.scale) && decide (v.roundDown % 2 = 1))
  | .posInf => decide (v.error ≠ 0)
  | .negInf => false
  | .zero => decide (v.error ≠ 0) && decide (v.roundDown < 0)
  | .tieAway => decide (2 * v.error > 2 ^ v.scale) ||
      (decide (2 * v.error = 2 ^ v.scale) && decide (v.roundDown ≥ 0))

/-- `int_result` of R98 after the rounding step. -/
def roundedInt (r : Rounding) (v : Exact) : Int :=
  if roundsUp r v then v.roundDown + 1 else v.roundDown

/-- The element `sign : exponent : fraction` (R95). -/
def pack (f : Format) (sign : Bool) (e frac : Nat) : BitVec f.width :=
  BitVec.ofNat f.width ((if sign then 2 ^ (f.width - 1) else 0) + e * 2 ^ f.fracBits + frac)

/-- `sign : Zeros(N-1)` (R98). -/
def signedZero (f : Format) (sign : Bool) : BitVec f.width := pack f sign 0 0

/-- `sign : Ones(E) : Zeros(F)` (R98). -/
def signedInfinity (f : Format) (sign : Bool) : BitVec f.width := pack f sign (2 ^ f.expBits - 1) 0

/-- The encoding of a nonzero integer of magnitude `m` (R100): `k = floor(log2(m))`, exponent `k + bias`, fraction
`m * 2^(F-k) - 2^F`, where for `k > F` the factor is a division that is exact. -/
def encodeInteger (f : Format) (sign : Bool) (m : Nat) : BitVec f.width :=
  let k := m.log2
  let scaled := if k ≤ f.fracBits then m * 2 ^ (f.fracBits - k) else m / 2 ^ (k - f.fracBits)
  pack f sign (k + f.bias) (scaled - 2 ^ f.fracBits)

/-- `altfp` of R96: `FEAT_AFP && fpcr.AH == '1'`. -/
def altFp (afp : Bool) (fpcr : Word64) : Bool := afp && fpcrAH fpcr

/-- Whether a Denormal operand is flushed to zero (R96). -/
def flushesDenormal (afp : Bool) (fpcr : Word64) (f : Format) : Bool :=
  match f with
  | .half => fpcrFZ16 fpcr
  | .single | .double => (fpcrFZ fpcr && !altFp afp fpcr) || (afp && fpcrFIZ fpcr)

/-- Whether flushing a Denormal operand sets Input Denormal (R96): single and double precision with `fz`. -/
def flushSetsInputDenorm (afp : Bool) (fpcr : Word64) (f : Format) : Bool :=
  match f with
  | .half => false
  | .single | .double => fpcrFZ fpcr && !altFp afp fpcr

/-- The class part of `FPUnpack` (R96): a flushed Denormal is a Zero. -/
def unpackType (afp : Bool) (fpcr : Word64) (f : Format) (op : BitVec f.width) : FpType :=
  if classify f op = .denormal ∧ flushesDenormal afp fpcr f then .zero else classify f op

/-- The conditions `FPUnpack` signals (R96), called with `fpexc = !altfp`. -/
def unpackConditions (afp : Bool) (fpcr : Word64) (f : Format) (op : BitVec f.width) : List FpExc :=
  if classify f op = .denormal ∧ flushSetsInputDenorm afp fpcr f then [.inputDenorm] else []

/-- `FPDefaultNaN(fpcr, N)` (R101). -/
def fpDefaultNaN (afp : Bool) (fpcr : Word64) (f : Format) : BitVec f.width :=
  pack f (altFp afp fpcr) (2 ^ f.expBits - 1) (2 ^ (f.fracBits - 1))

/-- `FPProcessNaN(fptype, op, fpcr)` (R101) with the conditions it signals. -/
def fpProcessNaN (afp : Bool) (fpcr : Word64) (f : Format) (t : FpType) (op : BitVec f.width) :
    BitVec f.width × List FpExc :=
  let quiet := if t = .snan then op ||| BitVec.twoPow f.width (f.fracBits - 1) else op
  let conditions := if t = .snan then [FpExc.invalidOp] else []
  (if fpcrDN fpcr then fpDefaultNaN afp fpcr f else quiet, conditions)

/-- `FPRoundInt(op, fpcr, rounding, exact)` (R98): the result and the conditions signalled, in order. -/
def fpRoundInt (afp : Bool) (fpcr : Word64) (r : Rounding) (exact : Bool) (f : Format) (op : BitVec f.width) :
    BitVec f.width × List FpExc :=
  let unpacked := unpackConditions afp fpcr f op
  match unpackType afp fpcr f op with
  | .snan => fpProcessNaN afp fpcr f .snan op
  | .qnan => fpProcessNaN afp fpcr f .qnan op
  | .infinity => (signedInfinity f op.msb, unpacked)
  | .zero => (signedZero f op.msb, unpacked)
  | .nonzero | .denormal =>
    let v := exactValue f op
    let n := roundedInt r v
    (if n = 0 then signedZero f op.msb else encodeInteger f op.msb n.natAbs,
     unpacked ++ if v.error ≠ 0 ∧ exact then [.inexact] else [])

/-- `FPRoundInt` as the configuration gives it (R4, D16). -/
def configRoundInt (c : Config) (fpcr : Word64) (r : Rounding) (exact : Bool) (f : Format) (op : BitVec f.width) :
    BitVec f.width × List FpExc :=
  match c.fpRoundInt with
  | .intended => fpRoundInt c.featAfp fpcr r exact f op
  | .free n => Config.freeFpRoundInt n f.width op fpcr r exact

/-- `FPRoundingMode` as the configuration gives it (R4, D16). -/
def configRoundingMode (c : Config) (fpcr : Word64) : Rounding :=
  match c.fpRoundingMode with
  | .intended => fpRoundingMode fpcr
  | .free n => Config.freeFpRoundingMode n fpcr

end Sys2Proof.Machine
end

