-- ==== Sys2Proof/WellFormed.lean ====
section
/-! DEFINITION. Which instructions have an assembler spelling (spec 30_encoding.md R53, R62). Register numbers are
well-formed by their types (R54: every `Pg`, `Zn`, `Zd` is legal), so the one check is the size specifier. -/

namespace Sys2Proof

/-- `size == '00'` is RESERVED: no `<T>` spells it (R53). -/
def Size.wellFormed (t : Size) : Bool := t != .reserved

/-- Well-formed syntax: the size specifier is one of H, S, D (R53, R62). -/
def Instr.wellFormed (i : Instr) : Bool := i.size.wellFormed

end Sys2Proof
end

