-- ==== Sys2Proof/Decode.lean ====
section
/-! DEFINITION. Decoding and encoding (spec 30_encoding.md R48 to R60, opcode_table.json). Both are written from the
same table: mask 0xFF3FE000, one `match` word per row, and the fields `size` 23:22, `Pg` 12:10, `Zn` 9:5, `Zd` 4:0.
A word with `size == '00'` decodes to its row's instruction with `Size.reserved`; executing it is what raises
UndefinedInstruction (R56, R106). -/

namespace Sys2Proof

/-- The meaning of the `size` field (R53). -/
def Size.ofField (b : BitVec 2) : Size :=
  if b = 0b00#2 then .reserved else if b = 0b01#2 then .h else if b = 0b10#2 then .s else .d

/-- The `size` field of a size specifier (R53). -/
def Size.toField : Size → BitVec 2
  | .reserved => 0b00#2
  | .h => 0b01#2
  | .s => 0b10#2
  | .d => 0b11#2

/-- The mask of all 14 rows: bits 31:24, 21:16, 15:13 (R52). -/
def rowMask : Word := 0xFF3FE000#32

/-- One row of the opcode table: its `match` word and the instruction its fields fill in. -/
structure Row where
  word : Word
  instr : Size → Fin 32 → Fin 8 → Fin 32 → Instr

/-- The 14 rows, in the order of opcode_table.json. -/
def rows : List Row :=
  [⟨0x6506A000#32, .frintxM⟩, ⟨0x6419C000#32, .frintxZ⟩, ⟨0x6507A000#32, .frintiM⟩, ⟨0x6419E000#32, .frintiZ⟩,
   ⟨0x6504A000#32, .frintaM⟩, ⟨0x64198000#32, .frintaZ⟩, ⟨0x6500A000#32, .frintnM⟩, ⟨0x64188000#32, .frintnZ⟩,
   ⟨0x6503A000#32, .frintzM⟩, ⟨0x6418E000#32, .frintzZ⟩, ⟨0x6502A000#32, .frintmM⟩, ⟨0x6418C000#32, .frintmZ⟩,
   ⟨0x6501A000#32, .frintpM⟩, ⟨0x6418A000#32, .frintpZ⟩]

/-- `size = w[23:22]` (R60). -/
def sizeOfWord (w : Word) : Size := Size.ofField (w.extractLsb' 22 2)

/-- `g = UInt(Pg)`, `Pg = w[12:10]` (R54, R60). -/
def pgOfWord (w : Word) : Fin 8 := (w.extractLsb' 10 3).toFin

/-- `n = UInt(Zn)`, `Zn = w[9:5]` (R54, R60). -/
def znOfWord (w : Word) : Fin 32 := (w.extractLsb' 5 5).toFin

/-- `d = UInt(Zd)`, `Zd = w[4:0]` (R54, R60). -/
def zdOfWord (w : Word) : Fin 32 := (w.extractLsb' 0 5).toFin

/-- The decoding algorithm of R60 on one word: the row whose `match` equals `w AND 0xFF3FE000`, its fields filled in;
none where no row matches. -/
def decodeWord (w : Word) : Option Instr :=
  (rows.find? fun r => w &&& rowMask == r.word).map fun r =>
    r.instr (sizeOfWord w) (zdOfWord w) (pgOfWord w) (znOfWord w)

/-- Why bytes are no instruction of the machine. -/
inductive DecodeReject where
  /-- Fewer than the four bytes of an instruction word (R48). -/
  | truncated
  /-- "not an FRINT<r> (predicated) encoding" (R57): the word matches none of the 14 rows. -/
  | notFrintEncoding (w : Word)
deriving DecidableEq, Repr

/-- The 32-bit word of four bytes, the byte at the lowest address first: little-endian fetch (R37). -/
def wordOfBytes (b0 b1 b2 b3 : Byte) : Word :=
  (b3.setWidth 32 <<< 24) ||| (b2.setWidth 32 <<< 16) ||| (b1.setWidth 32 <<< 8) ||| b0.setWidth 32

/-- The four bytes of a word, lowest address first (R37). -/
def bytesOfWord (w : Word) : List Byte :=
  [w.extractLsb' 0 8, w.extractLsb' 8 8, w.extractLsb' 16 8, w.extractLsb' 24 8]

/-- Decode the instruction at the head of a byte list and return the bytes after it. -/
def decode : List Byte → Except DecodeReject (Instr × List Byte)
  | b0 :: b1 :: b2 :: b3 :: rest =>
    match decodeWord (wordOfBytes b0 b1 b2 b3) with
    | some i => .ok (i, rest)
    | none => .error (.notFrintEncoding (wordOfBytes b0 b1 b2 b3))
  | _ => .error .truncated

/-- A row's word with its fields added: `match + size << 22 + Pg << 10 + Zn << 5 + Zd` (R52). -/
def encodeFields (m : Word) (t : Size) (zd : Fin 32) (pg : Fin 8) (zn : Fin 32) : Word :=
  m ||| (t.toField.setWidth 32 <<< 22) ||| (BitVec.ofNat 32 pg.val <<< 10) ||| (BitVec.ofNat 32 zn.val <<< 5)
    ||| BitVec.ofNat 32 zd.val

/-- The word of an instruction (R50, R51, R52). -/
def encode : Instr → Word
  | .frintxM t zd pg zn => encodeFields 0x6506A000#32 t zd pg zn
  | .frintxZ t zd pg zn => encodeFields 0x6419C000#32 t zd pg zn
  | .frintiM t zd pg zn => encodeFields 0x6507A000#32 t zd pg zn
  | .frintiZ t zd pg zn => encodeFields 0x6419E000#32 t zd pg zn
  | .frintaM t zd pg zn => encodeFields 0x6504A000#32 t zd pg zn
  | .frintaZ t zd pg zn => encodeFields 0x64198000#32 t zd pg zn
  | .frintnM t zd pg zn => encodeFields 0x6500A000#32 t zd pg zn
  | .frintnZ t zd pg zn => encodeFields 0x64188000#32 t zd pg zn
  | .frintzM t zd pg zn => encodeFields 0x6503A000#32 t zd pg zn
  | .frintzZ t zd pg zn => encodeFields 0x6418E000#32 t zd pg zn
  | .frintmM t zd pg zn => encodeFields 0x6502A000#32 t zd pg zn
  | .frintmZ t zd pg zn => encodeFields 0x6418C000#32 t zd pg zn
  | .frintpM t zd pg zn => encodeFields 0x6501A000#32 t zd pg zn
  | .frintpZ t zd pg zn => encodeFields 0x6418A000#32 t zd pg zn

/-- The bytes of an instruction in memory order (R37). -/
def encodeBytes (i : Instr) : List Byte := bytesOfWord (encode i)

/-- The instruction the decoder reads from an instruction whose bits are `w`, the first `nbits` of them given and the
rest zero. -/
def decodeTableWord (nbits w : Nat) : Option Instr :=
  match decode (bytesOfWord (BitVec.ofNat 32 (w % 2 ^ nbits))) with
  | .ok (i, _) => some i
  | .error _ => none

end Sys2Proof
end

