-- ==== Sys2Proof/Machine/Access.lean ====
section
/-! DEFINITION. Feature tests (spec 00_scope.md R3, 30_encoding.md R56) and `CheckSVEEnabled()` (60_exceptions.md R108),
with the architecture's check of R109 for the instantiation `SveAccess.registers` (log entry 4). -/

/-- `SveAccess` as R4 and 92_eei_decisions.md D4 leave it: any function of the state to `Enabled` (none) or a trap. -/
opaque Sys2Proof.Config.freeSveAccess (n : Nat) (s : Sys2Proof.Machine.State) : Option Sys2Proof.AccessTrap

namespace Sys2Proof.Machine

/-- The feature condition of a class: FEAT_SVE or FEAT_SME for a merging form, FEAT_SVE2p2 or FEAT_SME2p2 for a zeroing
form (R3, R66). -/
def featuresPresent (c : Config) (merging : Bool) : Bool :=
  if merging then c.featSve || c.featSme else c.featSve2p2 || c.featSme2p2

/-- A two-bit enable field disables the current level: 'x0' always, '01' where `at01` holds (R109). -/
def fieldDisables (field : BitVec 2) (at01 : Bool) : Bool :=
  !field.getLsbD 0 || (field == 0b01#2 && at01)

/-- A host regime: EL2 enabled with `HCR_EL2.{E2H,TGE}` both 1 (R109). -/
def inHostRegime (r : AccessRegs) : Bool := r.el2Enabled && r.e2h && r.tge

/-- "trap to EL1 if CPACR_EL1.<field> disables the current EL" (R109), for the field whose low bit is `lo`. The check
applies at EL0 and EL1 outside a host regime (log entry 4). -/
def trapsToEl1 (r : AccessRegs) (lo : Nat) : Bool :=
  (r.el == .el0 || r.el == .el1) && !inHostRegime r &&
    fieldDisables (r.cpacrEl1.extractLsb' lo 2) (r.el == .el0)

/-- "trap to EL2 if EL2 enabled and CPTR_EL2.<field> (E2H == 1) or CPTR_EL2.<bit> (E2H == 0) says so" (R109). The check
applies below EL3, and '01' disables EL0 in a host regime (log entry 4). -/
def trapsToEl2 (r : AccessRegs) (lo bit : Nat) : Bool :=
  r.el2Enabled && r.el != .el3 &&
    (if r.e2h then fieldDisables (r.cptrEl2.extractLsb' lo 2) (r.el == .el0 && r.tge)
     else r.cptrEl2.getLsbD bit)

/-- The checks of R109 with the trap each reports, in the order listed. -/
def accessLadder (c : Config) (r : AccessRegs) : List (Bool × AccessTrap) :=
  if c.featSme && r.sm then
    [(trapsToEl1 r 24, .sme 0b000#3), (trapsToEl1 r 20, .fp),
     (trapsToEl2 r 24 12, .sme 0b000#3), (trapsToEl2 r 20 10, .fp),
     (!r.cptrEl3.getLsbD 12, .sme 0b000#3), (r.cptrEl3.getLsbD 10, .fp)]
  else if c.featSme && !c.featSve then
    [(true, .sme 0b010#3)]
  else
    [(trapsToEl1 r 16, .sve), (trapsToEl1 r 20, .fp),
     (trapsToEl2 r 16 8, .sve), (trapsToEl2 r 20 10, .fp),
     (!r.cptrEl3.getLsbD 8, .sve), (r.cptrEl3.getLsbD 10, .fp)]

/-- "The first that fires is the one reported" (R109). -/
def firstTrap : List (Bool × AccessTrap) → Option AccessTrap
  | [] => none
  | (fires, k) :: rest => if fires then some k else firstTrap rest

/-- `CheckSVEEnabled()` in a state (R71, R108): none where it passes, or the trap it reports. -/
def checkSveEnabled (s : State) : Option AccessTrap :=
  match s.cfg.sveAccess with
  | .enabled => none
  | .trap k => some k
  | .registers r => firstTrap (accessLadder s.cfg r)
  | .ofState n => Config.freeSveAccess n s

end Sys2Proof.Machine
end

