-- ==== Sys2Proof/Machine/Operands.lean ====
section
/-! DEFINITION. The operand forms: elements of a vector (spec 00_scope.md R7, 10_state.md R17), the predicate helpers
(40_frint.md R68), and the accessors of Z and P at the current vector length (10_state.md R13, R15, R18). -/

namespace Sys2Proof.Machine

/-- `Elem[v, e, size]` read: `v[(e+1)*size-1 : e*size]` (R7). -/
def elem {w : Nat} (v : BitVec w) (e size : Nat) : BitVec size := v.extractLsb' (e * size) size

/-- `Elem[v, e, size] = x`: replaces those bits of `v`; all other bits keep their value (R7). -/
def setElem {w : Nat} (v : BitVec w) (e size : Nat) (x : BitVec size) : BitVec w :=
  (v &&& ~~~((BitVec.allOnes size).setWidth w <<< (e * size))) ||| (x.setWidth w <<< (e * size))

/-- `ActivePredicateElement(pred, e, esize)`: the predicate bit `e * (esize DIV 8)` (R20, R68). -/
def activeElement (pred : PVal) (e esize : Nat) : Bool := pred.getLsbD (e * (esize / 8))

/-- `AnyActiveElement(mask, esize)` over `elements` elements (R68). -/
def anyActiveElement (mask : PVal) (esize elements : Nat) : Bool :=
  (List.range elements).any fun e => activeElement mask e esize

/-- The low `n` bits of a container, zero above: the `bits(n)` value it holds (R15, R19). -/
def lowBits {w : Nat} (n : Nat) (v : BitVec w) : BitVec w := (v.setWidth n).setWidth w

/-- `Z[n, VL]`: the VL-bit value of a vector register (R13, R15). -/
def readZ (s : State) (n : Fin 32) : ZVal := lowBits s.cfg.vl s.z[n.val]

/-- `P[g, PL]`: the PL-bit value of a predicate register; only P0 to P7 can be named (R18). -/
def readP (s : State) (g : Fin 8) : PVal := lowBits s.cfg.pl s.p[g.val]

/-- `Z[d, VL] = v`: one write of all VL bits (R13, R39). -/
def writeZ (s : State) (d : Fin 32) (v : ZVal) : State :=
  { s with z := s.z.set d.val (lowBits s.cfg.vl v) }

/-- `FPSR <- FPSR OR flags` (R71). -/
def orFpsr (s : State) (flags : Word64) : State := { s with fpsr := s.fpsr ||| flags }

end Sys2Proof.Machine
end

