-- ==== Sys2Proof/Machine/Ops.lean ====
section
/-! DEFINITION. The shared operations: the program text (spec 20_memory.md R36 to R38), fetch, raising an exception
(60_exceptions.md R114), and completing an instruction (10_state.md R25). There is no return from an exception: a raise
is terminal (R114, R116; 00_scope.md section 3). -/

namespace Sys2Proof.Machine

/-- The byte of the program text at an address; none where nothing is listed (R36, R38). -/
def Memory.read : Memory → Nat → Option Byte
  | [], _ => none
  | c :: rest, a => if a = c.1 then some c.2 else Memory.read rest a

/-- Place a byte of the program text, keeping addresses rising. -/
def Memory.insert (a : Nat) (b : Byte) : Memory → Memory
  | [] => [(a, b)]
  | c :: rest =>
    if a < c.1 then (a, b) :: c :: rest
    else if a = c.1 then (a, b) :: rest
    else c :: Memory.insert a b rest

/-- Place a byte at an address of the 64-bit address space; an address outside it does not exist (R36). -/
def Memory.write (m : Memory) (a : Nat) (b : Byte) : Memory :=
  if a < 2 ^ 64 then Memory.insert a b m else m

/-- Place bytes at consecutive addresses. -/
def Memory.writeBytes (m : Memory) (a : Nat) : List Byte → Memory
  | [] => m
  | b :: rest => Memory.writeBytes (Memory.write m a b) (a + 1) rest

/-- The four bytes of the word at an address, lowest address first; none where one of them is absent (R36, R37). -/
def Memory.wordBytes (m : Memory) (a : Nat) : Option (List Byte) :=
  match Memory.read m a, Memory.read m (a + 1), Memory.read m (a + 2), Memory.read m (a + 3) with
  | some b0, some b1, some b2, some b3 => some [b0, b1, b2, b3]
  | _, _, _, _ => none

/-- Fetch the bytes of the instruction at `pc`: a set fault mark, a misaligned `pc` or an absent word has no step (R38,
R114). -/
def fetch (s : State) : Except Fault (List Byte) :=
  match s.mark with
  | some e => .error (.stoppedByMark e)
  | none =>
    if s.pc.toNat % 4 = 0 then
      match Memory.wordBytes s.text s.pc.toNat with
      | some bytes => .ok bytes
      | none => .error .stuckNoWord
    else .error .stuckPcMisaligned

/-- `raise e`: the fault mark is set with the exception's name and value, and no other state changes (R114). -/
def raise (e : Raised) (s : State) : Host.Outcome State Fault Refusal := .next { s with mark := some e }

/-- The end of an instruction that raised nothing: `pc <- pc + 4`, refused where `pc + 4` does not fit in 64 bits
(R25). -/
def complete (s : State) : Host.Outcome State Fault Refusal :=
  if s.pc.toNat + 4 < 2 ^ 64 then .next { s with pc := s.pc + 4#64 } else .refused .pcWrap

/-- What a rejected decoding gives: a word of no row is refused by name (R57), and too few bytes are no word (R38). -/
def outcomeOfReject : DecodeReject → Host.Outcome State Fault Refusal
  | .notFrintEncoding w => .refused (.notFrintEncoding w)
  | .truncated => .fault .stuckNoWord

/-- The state with the bytes of one instruction word placed at `pc`, where the next fetch reads them. -/
def placeAtPc (s : State) (w : Word) : State :=
  { s with text := Memory.writeBytes s.text s.pc.toNat (bytesOfWord w) }

end Sys2Proof.Machine
end

