-- ==== Sys2Proof/Machine/Frint.lean ====
section
/-! DEFINITION. The Operation shared by the 14 instructions (spec 40_frint.md R66, R67, R71): the element loop, then
one instruction from its decode constants. The loop takes the element function as an argument, so that what it does
with a vector is said apart from `FPRoundInt` (92_eei_decisions.md D16). -/

namespace Sys2Proof.Machine

/-- Where a class takes its rounding from: a fixed `FPRounding` value, or `FPRoundingMode(FPCR)` (R55, R60). -/
inductive RoundingSource where
  | fixed (r : Rounding)
  | fromFpcr
deriving DecidableEq, Repr

/-- The decode constants of a class (R55, R66). -/
structure ClassConstants where
  exact : Bool
  rounding : RoundingSource
  merging : Bool
deriving DecidableEq, Repr

/-- The rounding of a class under a configuration, in a state whose FPCR is `fpcr`: the FPCR of the state in which the
instruction executes (R60; 90_conflicts.md C9). -/
def RoundingSource.resolve (src : RoundingSource) (c : Config) (fpcr : Word64) : Rounding :=
  match src with
  | .fixed r => r
  | .fromFpcr => configRoundingMode c fpcr

/-- The loop of R67 over elements 0 to `n - 1`: the vector so far and the conditions signalled so far, in order. -/
def roundLoop {w : Nat} (esize : Nat) (mask : PVal) (operand : BitVec w)
    (round : BitVec esize → BitVec esize × List FpExc) (start : BitVec w) : Nat → BitVec w × List FpExc
  | 0 => (start, [])
  | e + 1 =>
    let before := roundLoop esize mask operand round start e
    if activeElement mask e esize then
      let lane := round (elem operand e esize)
      (setElem before.1 e esize lane.1, before.2 ++ lane.2)
    else before

/-- `elements = VL DIV esize` (R5). -/
def elementCount (c : Config) (f : Format) : Nat := c.vl / f.width

/-- The Operation of R67 up to its last statement: `result`, and the conditions its `FPRoundInt` calls signalled. -/
def frintOperation (k : ClassConstants) (f : Format) (zd : Fin 32) (pg : Fin 8) (zn : Fin 32) (s : State) :
    ZVal × List FpExc :=
  let elements := elementCount s.cfg f
  let mask := readP s pg
  let operand := if anyActiveElement mask f.width elements then readZ s zn else 0#2048
  let start := if k.merging then readZ s zd else 0#2048
  roundLoop f.width mask operand (configRoundInt s.cfg s.fpcr (k.rounding.resolve s.cfg s.fpcr) k.exact f) start
    elements

/-- The Operation of R67 with the end of R71: refused where a condition's trap is taken, else `Z[d] <- result`,
`FPSR <- FPSR OR flags`, `pc <- pc + 4`. -/
def frintExecute (k : ClassConstants) (f : Format) (zd : Fin 32) (pg : Fin 8) (zn : Fin 32) (s : State) :
    Host.Outcome State Fault Refusal :=
  let r := frintOperation k f zd pg zn s
  if fpTrapTaken s.cfg s.fpcr r.2 then .refused (.trappedFpException r.2)
  else complete (orFpsr (writeZ s zd r.1) (fpFlags r.2))

/-- One instruction of the group whose word is `w` (R71, R113): UNDEFINED where the class's features are absent or
`size == '00'` (R56, R106), then `CheckSVEEnabled()` (R108), then the Operation. -/
def frint (k : ClassConstants) (w : Word) (t : Size) (zd : Fin 32) (pg : Fin 8) (zn : Fin 32) (s : State) :
    Host.Outcome State Fault Refusal :=
  if featuresPresent s.cfg k.merging then
    match formatOfSize t with
    | none => raise (.undefinedInstruction w) s
    | some f =>
      match checkSveEnabled s with
      | some trap => raise (.accessTrap trap) s
      | none => frintExecute k f zd pg zn s
  else raise (.undefinedInstruction w) s

end Sys2Proof.Machine
end

