-- ==== Sys2Proof/Machine/FrintMerging.lean ====
section
/-! DEFINITION. The meanings of the seven merging instructions (spec 40_frint.md R66 and the instruction rules
cited), each the shared Operation under its class's decode constants (exact, rounding, merging). -/

namespace Sys2Proof.Machine

/-- FRINTX (merging): current FPCR mode, signalling inexact (R73). -/
def execFrintxM (t : Size) (zd : Fin 32) (pg : Fin 8) (zn : Fin 32) (s : State) :
    Host.Outcome State Fault Refusal :=
  frint ⟨true, .fromFpcr, true⟩ (encode (.frintxM t zd pg zn)) t zd pg zn s

/-- FRINTI (merging): current FPCR mode (R75). -/
def execFrintiM (t : Size) (zd : Fin 32) (pg : Fin 8) (zn : Fin 32) (s : State) :
    Host.Outcome State Fault Refusal :=
  frint ⟨false, .fromFpcr, true⟩ (encode (.frintiM t zd pg zn)) t zd pg zn s

/-- FRINTA (merging): to nearest, ties away from zero (R77). -/
def execFrintaM (t : Size) (zd : Fin 32) (pg : Fin 8) (zn : Fin 32) (s : State) :
    Host.Outcome State Fault Refusal :=
  frint ⟨false, .fixed .tieAway, true⟩ (encode (.frintaM t zd pg zn)) t zd pg zn s

/-- FRINTN (merging): to nearest, ties to even (R79). -/
def execFrintnM (t : Size) (zd : Fin 32) (pg : Fin 8) (zn : Fin 32) (s : State) :
    Host.Outcome State Fault Refusal :=
  frint ⟨false, .fixed .tieEven, true⟩ (encode (.frintnM t zd pg zn)) t zd pg zn s

/-- FRINTZ (merging): toward zero (R81). -/
def execFrintzM (t : Size) (zd : Fin 32) (pg : Fin 8) (zn : Fin 32) (s : State) :
    Host.Outcome State Fault Refusal :=
  frint ⟨false, .fixed .zero, true⟩ (encode (.frintzM t zd pg zn)) t zd pg zn s

/-- FRINTM (merging): toward minus infinity (R83). -/
def execFrintmM (t : Size) (zd : Fin 32) (pg : Fin 8) (zn : Fin 32) (s : State) :
    Host.Outcome State Fault Refusal :=
  frint ⟨false, .fixed .negInf, true⟩ (encode (.frintmM t zd pg zn)) t zd pg zn s

/-- FRINTP (merging): toward plus infinity (R85). -/
def execFrintpM (t : Size) (zd : Fin 32) (pg : Fin 8) (zn : Fin 32) (s : State) :
    Host.Outcome State Fault Refusal :=
  frint ⟨false, .fixed .posInf, true⟩ (encode (.frintpM t zd pg zn)) t zd pg zn s

end Sys2Proof.Machine
end

