-- ==== Sys2Proof/Machine/FrintZeroing.lean ====
section
/-! DEFINITION. The meanings of the seven zeroing instructions (spec 40_frint.md R66 and the instruction rules
cited), each the shared Operation under its class's decode constants (exact, rounding, merging). -/

namespace Sys2Proof.Machine

/-- FRINTX (zeroing): current FPCR mode, signalling inexact (R74). -/
def execFrintxZ (t : Size) (zd : Fin 32) (pg : Fin 8) (zn : Fin 32) (s : State) :
    Host.Outcome State Fault Refusal :=
  frint ⟨true, .fromFpcr, false⟩ (encode (.frintxZ t zd pg zn)) t zd pg zn s

/-- FRINTI (zeroing): current FPCR mode (R76). -/
def execFrintiZ (t : Size) (zd : Fin 32) (pg : Fin 8) (zn : Fin 32) (s : State) :
    Host.Outcome State Fault Refusal :=
  frint ⟨false, .fromFpcr, false⟩ (encode (.frintiZ t zd pg zn)) t zd pg zn s

/-- FRINTA (zeroing): to nearest, ties away from zero (R78). -/
def execFrintaZ (t : Size) (zd : Fin 32) (pg : Fin 8) (zn : Fin 32) (s : State) :
    Host.Outcome State Fault Refusal :=
  frint ⟨false, .fixed .tieAway, false⟩ (encode (.frintaZ t zd pg zn)) t zd pg zn s

/-- FRINTN (zeroing): to nearest, ties to even (R80). -/
def execFrintnZ (t : Size) (zd : Fin 32) (pg : Fin 8) (zn : Fin 32) (s : State) :
    Host.Outcome State Fault Refusal :=
  frint ⟨false, .fixed .tieEven, false⟩ (encode (.frintnZ t zd pg zn)) t zd pg zn s

/-- FRINTZ (zeroing): toward zero (R82). -/
def execFrintzZ (t : Size) (zd : Fin 32) (pg : Fin 8) (zn : Fin 32) (s : State) :
    Host.Outcome State Fault Refusal :=
  frint ⟨false, .fixed .zero, false⟩ (encode (.frintzZ t zd pg zn)) t zd pg zn s

/-- FRINTM (zeroing): toward minus infinity (R84). -/
def execFrintmZ (t : Size) (zd : Fin 32) (pg : Fin 8) (zn : Fin 32) (s : State) :
    Host.Outcome State Fault Refusal :=
  frint ⟨false, .fixed .negInf, false⟩ (encode (.frintmZ t zd pg zn)) t zd pg zn s

/-- FRINTP (zeroing): toward plus infinity (R86). -/
def execFrintpZ (t : Size) (zd : Fin 32) (pg : Fin 8) (zn : Fin 32) (s : State) :
    Host.Outcome State Fault Refusal :=
  frint ⟨false, .fixed .posInf, false⟩ (encode (.frintpZ t zd pg zn)) t zd pg zn s

end Sys2Proof.Machine
end

