-- ==== Sys2Proof/Machine/Dispatch.lean ====
section
/-! DEFINITION. One arm per instruction of the opcode table, each a direct call of its meaning. -/

namespace Sys2Proof.Machine

def exec (i : Instr) (s : State) : Host.Outcome State Fault Refusal :=
  match i with
  | .frintxM t zd pg zn => Sys2Proof.Machine.execFrintxM t zd pg zn s
  | .frintxZ t zd pg zn => Sys2Proof.Machine.execFrintxZ t zd pg zn s
  | .frintiM t zd pg zn => Sys2Proof.Machine.execFrintiM t zd pg zn s
  | .frintiZ t zd pg zn => Sys2Proof.Machine.execFrintiZ t zd pg zn s
  | .frintaM t zd pg zn => Sys2Proof.Machine.execFrintaM t zd pg zn s
  | .frintaZ t zd pg zn => Sys2Proof.Machine.execFrintaZ t zd pg zn s
  | .frintnM t zd pg zn => Sys2Proof.Machine.execFrintnM t zd pg zn s
  | .frintnZ t zd pg zn => Sys2Proof.Machine.execFrintnZ t zd pg zn s
  | .frintzM t zd pg zn => Sys2Proof.Machine.execFrintzM t zd pg zn s
  | .frintzZ t zd pg zn => Sys2Proof.Machine.execFrintzZ t zd pg zn s
  | .frintmM t zd pg zn => Sys2Proof.Machine.execFrintmM t zd pg zn s
  | .frintmZ t zd pg zn => Sys2Proof.Machine.execFrintmZ t zd pg zn s
  | .frintpM t zd pg zn => Sys2Proof.Machine.execFrintpM t zd pg zn s
  | .frintpZ t zd pg zn => Sys2Proof.Machine.execFrintpZ t zd pg zn s

end Sys2Proof.Machine
end

