-- ==== Sys2Proof/Machine/Step.lean ====
section
/-! DEFINITION. One step of the PE (spec 40_frint.md R71): fetch, decode, execute. -/

namespace Sys2Proof.Machine

/-- Fetch the word at `pc`, decode it and perform it to completion (R12, R71). -/
def step (s : State) : Host.Outcome State Fault Refusal :=
  match fetch s with
  | .error f => .fault f
  | .ok bytes =>
    match decode bytes with
    | .error r => outcomeOfReject r
    | .ok (i, _) => exec i s

/-- The state with the instruction whose first `nbits` bits are `w` (the rest zero) placed where `step` fetches. It
stands for the part of a launch that places the program text (R127; log entry 7). -/
def State.withFetchWord (s : State) (nbits w : Nat) : State := placeAtPc s (BitVec.ofNat 32 (w % 2 ^ nbits))

end Sys2Proof.Machine
end

