-- ==== Sys2Proof/Machine/Launch.lean ====
section
/-! DEFINITION. A launch of the machine (spec 70_reset_and_hazards.md R127): how a program comes to run. The parameters of
R4 and the register values stand in the state a launch starts from; the launch places the program text (log entry 7). -/

namespace Sys2Proof.Machine

/-- The program of a launch: its words, at consecutive addresses from `base` (R127). -/
structure Launch where
  base : Word64
  words : List Word
deriving DecidableEq, Repr

/-- `base` is a multiple of 4 and `base + 4*len` is below 2^64 (R127; 90_conflicts.md C11). -/
abbrev Launch.wf (l : Launch) : Prop := l.base.toNat % 4 = 0 ∧ l.base.toNat + 4 * l.words.length < 2 ^ 64

/-- The bytes of a list of words, lowest address first (R37). -/
def bytesOfWords : List Word → List Byte
  | [] => []
  | w :: rest => bytesOfWord w ++ bytesOfWords rest

/-- The state a launch starts from: the text placed, `pc = base`, the fault mark clear, every register as given (R127). -/
def Launch.start (l : Launch) (s : State) : State :=
  { s with text := Memory.writeBytes [] l.base.toNat (bytesOfWords l.words), pc := l.base, mark := none }

/-- THE END OF A RUN: the fault mark clear and `pc == base + 4*len` (R128). -/
def Launch.endOfRun (l : Launch) (s : State) : Bool :=
  s.mark == none && s.pc.toNat == l.base.toNat + 4 * l.words.length

end Sys2Proof.Machine
end

