-- ==== Sys2Proof/Safety.lean ====
section
/-! DEFINITION. The terms claims are stated in: the named launch premises (spec 70_reset_and_hazards.md R127), the
invariant of the state (10_state.md R15, R19, R33), when an instruction executes (R56, R108, R102, R25), the decode
constants of each class (40_frint.md R66), and the exact rational value of an element with the rounding options in the
source's words (41_fp_numerics.md R93, R95). -/

namespace Sys2Proof.Machine

/-- `NoFaultRecorded` (R127). -/
abbrev NoFaultRecorded (s : State) : Prop := s.mark = none

/-- `PcAtBase` (R127). -/
abbrev PcAtBase (l : Launch) (s : State) : Prop := s.pc = l.base

/-- `FpcrWellFormed`: RES0 bits zero, bits 2:0 zero unless FEAT_AFP (R33, R127). -/
abbrev FpcrWellFormed (s : State) : Prop := s.fpcr &&& fpcrRes0 s.cfg = 0#64

/-- `FpsrWellFormed`: RES0 bits zero (R33, R127). -/
abbrev FpsrWellFormed (s : State) : Prop := s.fpsr &&& fpsrRes0 = 0#64

/-- `TrapEnablesClear`: `FPCR` bits 15 and 12:8 zero (R127). -/
abbrev TrapEnablesClear (s : State) : Prop := s.fpcr &&& 0x9F00#64 = 0#64

/-- Every register holds exactly VL or PL bits: its container is zero above them (R15, R19). -/
abbrev RegistersFit (s : State) : Prop :=
  (∀ n : Fin 32, lowBits s.cfg.vl s.z[n.val] = s.z[n.val]) ∧
  (∀ n : Fin 16, lowBits s.cfg.pl s.p[n.val] = s.p[n.val]) ∧
  lowBits s.cfg.pl s.ffr = s.ffr

/-- The invariant of the machine: the launch state's well-formedness of R33 (register widths, RES0 bits, an aligned
`pc`), and a canonical program text (R36). -/
abbrev State.Inv (s : State) : Prop :=
  RegistersFit s ∧ FpcrWellFormed s ∧ FpsrWellFormed s ∧ s.pc.toNat % 4 = 0 ∧ Memory.wf s.text

/-- The decode constants of each class, the table of R66. -/
def constantsOf : Instr → ClassConstants
  | .frintxM _ _ _ _ => ⟨true, .fromFpcr, true⟩
  | .frintxZ _ _ _ _ => ⟨true, .fromFpcr, false⟩
  | .frintiM _ _ _ _ => ⟨false, .fromFpcr, true⟩
  | .frintiZ _ _ _ _ => ⟨false, .fromFpcr, false⟩
  | .frintaM _ _ _ _ => ⟨false, .fixed .tieAway, true⟩
  | .frintaZ _ _ _ _ => ⟨false, .fixed .tieAway, false⟩
  | .frintnM _ _ _ _ => ⟨false, .fixed .tieEven, true⟩
  | .frintnZ _ _ _ _ => ⟨false, .fixed .tieEven, false⟩
  | .frintzM _ _ _ _ => ⟨false, .fixed .zero, true⟩
  | .frintzZ _ _ _ _ => ⟨false, .fixed .zero, false⟩
  | .frintmM _ _ _ _ => ⟨false, .fixed .negInf, true⟩
  | .frintmZ _ _ _ _ => ⟨false, .fixed .negInf, false⟩
  | .frintpM _ _ _ _ => ⟨false, .fixed .posInf, true⟩
  | .frintpZ _ _ _ _ => ⟨false, .fixed .posInf, false⟩

/-- The configuration's `FPRoundInt` has its intended value, R98 (R4, D16). -/
abbrev HasIntendedRoundInt (c : Config) : Prop :=
  ∀ (fpcr : Word64) (r : Rounding) (exact : Bool) (f : Format) (op : BitVec f.width),
    configRoundInt c fpcr r exact f op = fpRoundInt c.featAfp fpcr r exact f op

/-- The configuration's `FPRoundingMode` has its intended value, R97 (R4, D16). -/
abbrev HasIntendedMode (c : Config) : Prop := ∀ fpcr : Word64, configRoundingMode c fpcr = fpRoundingMode fpcr

/-- The rounding an instruction uses in a state (R60, R66). -/
def roundingOf (i : Instr) (s : State) : Rounding := (constantsOf i).rounding.resolve s.cfg s.fpcr

/-- The instruction is UNDEFINED in a configuration (R56): its class's features are absent, or `size == '00'`. -/
def isUndefined (i : Instr) (c : Config) : Bool :=
  !featuresPresent c (constantsOf i).merging || i.size == .reserved

/-- Element `e` of the vector register `n` in the format `f`. -/
def laneOf (s : State) (n : Fin 32) (f : Format) (e : Nat) : BitVec f.width := elem s.z[n.val] e f.width

/-- Element `e` is active for the instruction (R68). -/
def laneActive (s : State) (i : Instr) (f : Format) (e : Nat) : Bool := activeElement s.p[i.pg.val] e f.width

/-- What `FPRoundInt` gives for element `e` of the instruction's source (R69): the result and the conditions signalled. -/
def laneRounded (s : State) (i : Instr) (f : Format) (e : Nat) : BitVec f.width × List FpExc :=
  configRoundInt s.cfg s.fpcr (roundingOf i s) (constantsOf i).exact f (laneOf s i.zn f e)

/-- Some active element signals a condition whose floating-point trap is implemented and enabled (R102). -/
abbrev TrapTaken (s : State) (i : Instr) (f : Format) : Prop :=
  s.cfg.fpTraps = true ∧ ∃ e < elementCount s.cfg f, laneActive s i f e = true ∧
    ∃ c ∈ (laneRounded s i f e).2, s.fpcr.getLsbD c.enableBit = true

/-- The instruction reaches its Operation with elements of format `f`: not UNDEFINED, and `CheckSVEEnabled()` passes
(R106, R108, R125). -/
abbrev Reaches (s : State) (i : Instr) (f : Format) : Prop :=
  featuresPresent s.cfg (constantsOf i).merging = true ∧ formatOfSize i.size = some f ∧
    checkSveEnabled s = none

/-- A two-bit enable field denies the current level (R109): "'x0' always", and '01' where `at01` holds. -/
abbrev FieldDenies (field : BitVec 2) (at01 : Prop) : Prop :=
  field = 0b00#2 ∨ field = 0b10#2 ∨ (field = 0b01#2 ∧ at01)

/-- A CPACR_EL1 field traps to EL1 (R109): at EL0 and EL1, outside a host regime, '01' at EL0 (log entry 4). -/
abbrev El1Denies (r : AccessRegs) (field : BitVec 2) : Prop :=
  (r.el = .el0 ∨ r.el = .el1) ∧ ¬ (r.el2Enabled = true ∧ r.e2h = true ∧ r.tge = true) ∧
    FieldDenies field (r.el = .el0)

/-- CPTR_EL2 traps to EL2 (R109): EL2 enabled, below EL3, by the field where E2H is 1 ('01' at EL0 where TGE is 1) and by
the bit where E2H is 0 (log entry 4). -/
abbrev El2Denies (r : AccessRegs) (field : BitVec 2) (bit : Bool) : Prop :=
  r.el2Enabled = true ∧ r.el ≠ .el3 ∧
    (r.e2h = true ∧ FieldDenies field (r.el = .el0 ∧ r.tge = true) ∨ r.e2h = false ∧ bit = true)

/-- The instruction completes: it reaches its Operation, no floating-point trap is taken (R102), and `pc + 4` fits in
64 bits (R25). -/
abbrev CanComplete (s : State) (i : Instr) (f : Format) : Prop :=
  Reaches s i f ∧ ¬ TrapTaken s i f ∧ s.pc.toNat + 4 < 2 ^ 64

/-- The instruction is FRINTX, the one that signals inexact (R65). -/
def isFrintx : Instr → Bool
  | .frintxM _ _ _ _ | .frintxZ _ _ _ _ => true
  | _ => false

/-- The instruction is FRINTI or FRINTX, the two that take their rounding from FPCR (R65). -/
def usesCurrentMode : Instr → Bool
  | .frintxM _ _ _ _ | .frintxZ _ _ _ _ | .frintiM _ _ _ _ | .frintiZ _ _ _ _ => true
  | _ => false

/-- The rounding option of each mnemonic in the words of R65, where the current FPCR rounding mode is given. -/
def optionOf (i : Instr) (current : Rounding) : Rounding :=
  match i with
  | .frintnM _ _ _ _ | .frintnZ _ _ _ _ => .tieEven
  | .frintaM _ _ _ _ | .frintaZ _ _ _ _ => .tieAway
  | .frintmM _ _ _ _ | .frintmZ _ _ _ _ => .negInf
  | .frintpM _ _ _ _ | .frintpZ _ _ _ _ => .posInf
  | .frintzM _ _ _ _ | .frintzZ _ _ _ _ => .zero
  | .frintiM _ _ _ _ | .frintiZ _ _ _ _ | .frintxM _ _ _ _ | .frintxZ _ _ _ _ => current

/-- An outcome with a function applied to its next state. -/
def mapNext (g : State → State) : Host.Outcome State Fault Refusal → Host.Outcome State Fault Refusal
  | .next s => .next (g s)
  | .fault f => .fault f
  | .refused r => .refused r

/-- The exact rational value of a Zero, Denormal or Nonzero element (R95). -/
def rationalValue (f : Format) (op : BitVec f.width) : ℚ :=
  (exactValue f op).num / 2 ^ (exactValue f op).scale

/-- The element is a finite number: a Zero, Denormal or Nonzero of R95. -/
def isFinite (f : Format) (op : BitVec f.width) : Bool := expField f op != 2 ^ f.expBits - 1

/-- The element is a Denormal that `FPUnpack` flushes to zero (R96). -/
def isFlushed (afp : Bool) (fpcr : Word64) (f : Format) (op : BitVec f.width) : Bool :=
  classify f op == .denormal && flushesDenormal afp fpcr f

/-- The value of a finite element as `FPUnpack` gives it (R96): a flushed Denormal has the value 0. -/
def unpackedValue (afp : Bool) (fpcr : Word64) (f : Format) (op : BitVec f.width) : ℚ :=
  if isFlushed afp fpcr f op then 0 else rationalValue f op

/-- `k` is `q` rounded to an integer by a rounding option, in the words of R93 and R99: "to nearest, with ties to
even", "to nearest, with ties away from zero", "toward zero", "toward minus Infinity", "toward plus Infinity". -/
def RoundsTo (r : Rounding) (q : ℚ) (k : ℤ) : Prop :=
  match r with
  | .tieEven => |q - k| ≤ 1 / 2 ∧ (|q - k| = 1 / 2 → Even k)
  | .tieAway => |q - k| ≤ 1 / 2 ∧ (|q - k| = 1 / 2 → |q| < |(k : ℚ)|)
  | .zero => |(k : ℚ)| ≤ |q| ∧ |q| < |(k : ℚ)| + 1 ∧ 0 ≤ q * k
  | .negInf => (k : ℚ) ≤ q ∧ q < k + 1
  | .posInf => q ≤ (k : ℚ) ∧ (k : ℚ) < q + 1

end Sys2Proof.Machine
end

