-- ==== Sys2Proof/Certificates/Slice0/Obligations.lean ====
section
/-! DEFINITION. The statements about the machine. Each docstring names the rule of spec/ it formalises or rests on, and
where a rule is marked by the spec as its own decision or inference. None is about a program. -/

open Sys2Proof Sys2Proof.Machine

/-! ### Encoding -/

/-- Decoding the bytes of any instruction, followed by any bytes, gives back that instruction and those bytes (R50, R51,
R52, R54, R60). -/
def Obligations.DecodeOfEncodeIsTheInstruction : Prop :=
  ∀ (i : Instr) (rest : List Byte), decode (encodeBytes i ++ rest) = .ok (i, rest)

/-- A word that decodes is the encoding of the instruction it decodes to: no bit of a word is ignored (R52, R60). -/
def Obligations.EncodeOfDecodedIsTheWord : Prop :=
  ∀ (w : Word) (i : Instr), decodeWord w = some i → encode i = w

/-- Each register number is the unsigned value of its field (R54; the fields' places are R50, R51, R60, log entry 11),
and every combination of register numbers is an instruction, for every row and every size, including `d == n` (R54,
R56). -/
def Obligations.RegisterNumbersAreUnsignedFields : Prop :=
  (∀ (w : Word) (i : Instr), decodeWord w = some i →
    i.pg.val = w.toNat / 2 ^ 10 % 8 ∧ i.zn.val = w.toNat / 2 ^ 5 % 32 ∧ i.zd.val = w.toNat % 32) ∧
  (∀ r ∈ rows, ∀ (t : Size) (d : Fin 32) (g : Fin 8) (n : Fin 32), ∃ w, decodeWord w = some (r.instr t d g n))

/-- Words written out from the formats of R50 and R51 decode to the instructions 95_test_vectors.md section 2 gives, and
the unallocated `opc == 101` decodes to none. -/
def Obligations.WrittenOutWordsDecode : Prop :=
  decodeWord 0b01100101_10_000_110_101_000_00001_00000#32 = some (.frintxM .s 0 0 1) ∧
  decodeWord 0b01100101_11_000_111_101_111_11111_11111#32 = some (.frintiM .d 31 7 31) ∧
  decodeWord 0b01100101_01_000_011_101_000_00000_00000#32 = some (.frintzM .h 0 0 0) ∧
  decodeWord 0b01100100_01_011_000_100_000_00000_00000#32 = some (.frintnZ .h 0 0 0) ∧
  decodeWord 0b01100100_11_011_001_110_011_01101_10111#32 = some (.frintxZ .d 23 3 13) ∧
  decodeWord 0b01100100_11_011_000_101_101_10001_01001#32 = some (.frintpZ .d 9 5 17) ∧
  decodeWord 0b01100101_01_000_101_101_000_00000_00000#32 = none ∧
  decodeWord 0b01100100_00_011_001_101_000_00000_00000#32 = none

/-! ### Exceptions raised by an instruction -/

/-- R56 and R106: an instruction is UNDEFINED (it raises UndefinedInstruction with its word and writes nothing else) in
exactly two cases: the class's features are all unimplemented, or `size == '00'`. How a raise is written is R114's
(decision D5; log entry 8), and that the reserved size reaches execution is log entry 11. -/
def Obligations.UndefinedInExactlyTwoCases : Prop :=
  ∀ (i : Instr) (s : State),
    exec i s = .next { s with mark := some (.undefinedInstruction (encode i)) } ↔
      ((constantsOf i).merging = true ∧ s.cfg.featSve = false ∧ s.cfg.featSme = false) ∨
      ((constantsOf i).merging = false ∧ s.cfg.featSve2p2 = false ∧ s.cfg.featSme2p2 = false) ∨
      i.size = .reserved

/-- Where `CheckSVEEnabled()` reports a trap, the instruction raises it and changes nothing but the fault mark, unless
the instruction is UNDEFINED, which is reported first (R108 and R114, decisions D4 and D5; R113, derived). -/
def Obligations.AccessTrapIsRaisedAfterUndefined : Prop :=
  ∀ (i : Instr) (s : State) (k : AccessTrap), checkSveEnabled s = some k →
    exec i s = .next
      { s with mark := some (if isUndefined i s.cfg = true then .undefinedInstruction (encode i) else .accessTrap k) }

/-- The architecture's check over the registers of R29, as R109 lists it: "not in Streaming SVE mode" is reported
exactly outside Streaming SVE mode on an SME-only implementation; in Streaming SVE mode no SVE trap is reported; outside
it no SME trap with SMTC 000; at EL3 only CPTR_EL3 matters; and the trap reported is that of the first row that fires,
each row by its own field (SMEN 25:24, FPEN 21:20, ZEN 17:16) or bit (12, 10, 8). The levels at which each row applies
and the places of CPTR_EL2's fields with E2H 1 are the model's reading, log entry 4. -/
def Obligations.RegisterCheckReportsByMode : Prop :=
  ∀ (s : State) (r : AccessRegs), s.cfg.sveAccess = .registers r →
    (checkSveEnabled s = some (.sme 0b010#3) ↔ s.cfg.featSme = true ∧ r.sm = false ∧ s.cfg.featSve = false) ∧
    (s.cfg.featSme = true → r.sm = true → checkSveEnabled s ≠ some .sve) ∧
    (r.sm = false → checkSveEnabled s ≠ some (.sme 0b000#3)) ∧
    (s.cfg.featSme = true → r.sm = true → r.el = .el3 →
      (checkSveEnabled s = none ↔ r.cptrEl3.getLsbD 12 = true ∧ r.cptrEl3.getLsbD 10 = false)) ∧
    (s.cfg.featSve = true → r.sm = false → r.el = .el3 →
      (checkSveEnabled s = none ↔ r.cptrEl3.getLsbD 8 = true ∧ r.cptrEl3.getLsbD 10 = false)) ∧
    checkSveEnabled s =
      if s.cfg.featSme = true ∧ r.sm = true then
        if El1Denies r (r.cpacrEl1.extractLsb' 24 2) then some (.sme 0b000#3)
        else if El1Denies r (r.cpacrEl1.extractLsb' 20 2) then some .fp
        else if El2Denies r (r.cptrEl2.extractLsb' 24 2) (r.cptrEl2.getLsbD 12) then some (.sme 0b000#3)
        else if El2Denies r (r.cptrEl2.extractLsb' 20 2) (r.cptrEl2.getLsbD 10) then some .fp
        else if r.cptrEl3.getLsbD 12 = false then some (.sme 0b000#3)
        else if r.cptrEl3.getLsbD 10 = true then some .fp
        else none
      else if s.cfg.featSme = true ∧ s.cfg.featSve = false then some (.sme 0b010#3)
      else
        if El1Denies r (r.cpacrEl1.extractLsb' 16 2) then some .sve
        else if El1Denies r (r.cpacrEl1.extractLsb' 20 2) then some .fp
        else if El2Denies r (r.cptrEl2.extractLsb' 16 2) (r.cptrEl2.getLsbD 8) then some .sve
        else if El2Denies r (r.cptrEl2.extractLsb' 20 2) (r.cptrEl2.getLsbD 10) then some .fp
        else if r.cptrEl3.getLsbD 8 = false then some .sve
        else if r.cptrEl3.getLsbD 10 = true then some .fp
        else none

/-- The instantiations of `SveAccess` other than the registers, for an instruction that is not UNDEFINED: a constant trap is
always raised, the constant `Enabled` always passes, and a free function of the state is asked about the very state and
its answer followed (R4, R108, R114; decision D4, log entry 15). -/
def Obligations.SveAccessIsAskedInTheState : Prop :=
  ∀ (i : Instr) (f : Format) (s : State), featuresPresent s.cfg (constantsOf i).merging = true →
    formatOfSize i.size = some f →
    (∀ k, s.cfg.sveAccess = .trap k → exec i s = .next { s with mark := some (.accessTrap k) }) ∧
    (¬ TrapTaken s i f → s.pc.toNat + 4 < 2 ^ 64 →
      (s.cfg.sveAccess = .enabled → ∃ t, exec i s = .next t ∧ t.mark = s.mark ∧ t.pc = s.pc + 4#64) ∧
      (∀ n, s.cfg.sveAccess = .ofState n →
        match Config.freeSveAccess n s with
        | some k => exec i s = .next { s with mark := some (.accessTrap k) }
        | none => ∃ t, exec i s = .next t ∧ t.mark = s.mark ∧ t.pc = s.pc + 4#64))

/-! ### What a completed instruction does -/

/-- Every instruction that reaches its Operation, takes no floating-point trap and does not stand at the top of the
address space completes: each element of the destination by R69, FPSR gaining exactly the flags the active elements
signal, `pc + 4` (R25), and nothing else changed, whatever function the configuration's `FPRoundInt` is (D16). R69 is
derived by the spec from R67 and R68. -/
def Obligations.CompletesElementByElement : Prop :=
  ∀ (i : Instr) (f : Format) (s : State), CanComplete s i f →
    ∃ t, exec i s = .next t ∧
      (∀ e < elementCount s.cfg f, laneOf t i.zd f e =
        if laneActive s i f e = true then (laneRounded s i f e).1
        else if (constantsOf i).merging = true then laneOf s i.zd f e else 0#f.width) ∧
      (∀ b, t.fpsr.getLsbD b = true ↔ s.fpsr.getLsbD b = true ∨
        ∃ e < elementCount s.cfg f, laneActive s i f e = true ∧
          ∃ c ∈ (laneRounded s i f e).2, c.cumulativeBit = b) ∧
      t.pc = s.pc + 4#64 ∧
      (∀ n : Fin 32, n ≠ i.zd → t.z[n.val] = s.z[n.val]) ∧
      lowBits s.cfg.vl t.z[i.zd.val] = t.z[i.zd.val] ∧
      { t with z := s.z, fpsr := s.fpsr, pc := s.pc } = s

/-- With the intended `FPRoundInt` and `FPRoundingMode` (R98, R97; D16, log entry 6), each active finite element of the
source is rounded to an integral value with the option the mnemonic names (FRINTI and FRINTX: the current FPCR rounding
mode; FRINTX also signals inexact) and placed in the corresponding element of the destination; inactive elements remain
unmodified or are set to zero (R65). An infinity is kept (R98), a NaN gives a quiet NaN (R101), a flushed operand has
the value 0 (R96), and only a finite element signals inexact (R73, R74). -/
def Obligations.RoundsActiveElementsToIntegral : Prop :=
  ∀ (i : Instr) (f : Format) (s : State), HasIntendedRoundInt s.cfg → HasIntendedMode s.cfg → CanComplete s i f →
    ∃ t, exec i s = .next t ∧
      (∀ e < elementCount s.cfg f, laneActive s i f e = true → isFinite f (laneOf s i.zn f e) = true →
        isFinite f (laneOf t i.zd f e) = true ∧
        ∃ k : ℤ, rationalValue f (laneOf t i.zd f e) = k ∧
          RoundsTo (optionOf i (fpRoundingMode s.fpcr))
            (unpackedValue s.cfg.featAfp s.fpcr f (laneOf s i.zn f e)) k) ∧
      (∀ e < elementCount s.cfg f, laneActive s i f e = true →
        (classify f (laneOf s i.zn f e) = .infinity → laneOf t i.zd f e = laneOf s i.zn f e) ∧
        (classify f (laneOf s i.zn f e) = .qnan ∨ classify f (laneOf s i.zn f e) = .snan →
          classify f (laneOf t i.zd f e) = .qnan)) ∧
      (∀ e < elementCount s.cfg f, laneActive s i f e = false → laneOf t i.zd f e =
        if (constantsOf i).merging = true then laneOf s i.zd f e else 0#f.width) ∧
      (t.fpsr.getLsbD 4 = true ↔ s.fpsr.getLsbD 4 = true ∨ (isFrintx i = true ∧
        ∃ e < elementCount s.cfg f, laneActive s i f e = true ∧ isFinite f (laneOf s i.zn f e) = true ∧
          ∀ k : ℤ, unpackedValue s.cfg.featAfp s.fpcr f (laneOf s i.zn f e) ≠ k))

/-- FRINTN, both forms, with the intended `FPRoundInt`: an active finite element becomes the nearest integer, the even
one of two equally near, and a result of zero keeps the operand's sign (R79, R80, R72 item 6). -/
def Obligations.FrintnRoundsToNearestEven : Prop :=
  ∀ (i : Instr) (f : Format) (s : State) (t : Size) (d : Fin 32) (g : Fin 8) (n : Fin 32),
    i = .frintnM t d g n ∨ i = .frintnZ t d g n → HasIntendedRoundInt s.cfg → CanComplete s i f →
    ∃ s', exec i s = .next s' ∧ ∀ e < elementCount s.cfg f, laneActive s i f e = true →
      isFinite f (laneOf s n f e) = true →
      ∃ k : ℤ, rationalValue f (laneOf s' d f e) = k ∧
        |unpackedValue s.cfg.featAfp s.fpcr f (laneOf s n f e) - k| ≤ 1 / 2 ∧
        (|unpackedValue s.cfg.featAfp s.fpcr f (laneOf s n f e) - k| = 1 / 2 → Even k) ∧
        (laneOf s' d f e).msb = (laneOf s n f e).msb

/-- FRINTA, both forms, with the intended `FPRoundInt`: an active finite element becomes the nearest integer, the one
further from zero of two equally near (R77, R78). -/
def Obligations.FrintaRoundsTiesAway : Prop :=
  ∀ (i : Instr) (f : Format) (s : State) (t : Size) (d : Fin 32) (g : Fin 8) (n : Fin 32),
    i = .frintaM t d g n ∨ i = .frintaZ t d g n → HasIntendedRoundInt s.cfg → CanComplete s i f →
    ∃ s', exec i s = .next s' ∧ ∀ e < elementCount s.cfg f, laneActive s i f e = true →
      isFinite f (laneOf s n f e) = true →
      rationalValue f (laneOf s' d f e) =
        if 0 ≤ unpackedValue s.cfg.featAfp s.fpcr f (laneOf s n f e)
        then (⌊unpackedValue s.cfg.featAfp s.fpcr f (laneOf s n f e) + 1 / 2⌋ : ℚ)
        else (⌈unpackedValue s.cfg.featAfp s.fpcr f (laneOf s n f e) - 1 / 2⌉ : ℚ)

/-- FRINTM, both forms, with the intended `FPRoundInt`: an active finite element becomes its floor (R83, R84). -/
def Obligations.FrintmTakesTheFloor : Prop :=
  ∀ (i : Instr) (f : Format) (s : State) (t : Size) (d : Fin 32) (g : Fin 8) (n : Fin 32),
    i = .frintmM t d g n ∨ i = .frintmZ t d g n → HasIntendedRoundInt s.cfg → CanComplete s i f →
    ∃ s', exec i s = .next s' ∧ ∀ e < elementCount s.cfg f, laneActive s i f e = true →
      isFinite f (laneOf s n f e) = true →
      rationalValue f (laneOf s' d f e) = ⌊unpackedValue s.cfg.featAfp s.fpcr f (laneOf s n f e)⌋

/-- FRINTP, both forms, with the intended `FPRoundInt`: an active finite element becomes its ceiling (R85, R86). -/
def Obligations.FrintpTakesTheCeiling : Prop :=
  ∀ (i : Instr) (f : Format) (s : State) (t : Size) (d : Fin 32) (g : Fin 8) (n : Fin 32),
    i = .frintpM t d g n ∨ i = .frintpZ t d g n → HasIntendedRoundInt s.cfg → CanComplete s i f →
    ∃ s', exec i s = .next s' ∧ ∀ e < elementCount s.cfg f, laneActive s i f e = true →
      isFinite f (laneOf s n f e) = true →
      rationalValue f (laneOf s' d f e) = ⌈unpackedValue s.cfg.featAfp s.fpcr f (laneOf s n f e)⌉

/-- FRINTZ, both forms, with the intended `FPRoundInt`: an active finite element is truncated; a magnitude below 1 gives
a zero of the operand's own sign (R81, R82). -/
def Obligations.FrintzTruncates : Prop :=
  ∀ (i : Instr) (f : Format) (s : State) (t : Size) (d : Fin 32) (g : Fin 8) (n : Fin 32),
    i = .frintzM t d g n ∨ i = .frintzZ t d g n → HasIntendedRoundInt s.cfg → CanComplete s i f →
    ∃ s', exec i s = .next s' ∧ ∀ e < elementCount s.cfg f, laneActive s i f e = true →
      isFinite f (laneOf s n f e) = true →
      (rationalValue f (laneOf s' d f e) =
        if 0 ≤ unpackedValue s.cfg.featAfp s.fpcr f (laneOf s n f e)
        then (⌊unpackedValue s.cfg.featAfp s.fpcr f (laneOf s n f e)⌋ : ℚ)
        else (⌈unpackedValue s.cfg.featAfp s.fpcr f (laneOf s n f e)⌉ : ℚ)) ∧
      (|unpackedValue s.cfg.featAfp s.fpcr f (laneOf s n f e)| < 1 →
        laneOf s' d f e = signedZero f (laneOf s n f e).msb)

/-- FRINTI, both forms, with the two intended functions: an active finite element is rounded in the mode `FPCR.RMode`
holds (00 nearest even, 01 up, 10 down, 11 toward zero), and the Inexact flag is left as it was (R75, R76, R97). -/
def Obligations.FrintiUsesTheCurrentMode : Prop :=
  ∀ (i : Instr) (f : Format) (s : State) (t : Size) (d : Fin 32) (g : Fin 8) (n : Fin 32),
    i = .frintiM t d g n ∨ i = .frintiZ t d g n → HasIntendedRoundInt s.cfg → HasIntendedMode s.cfg →
    CanComplete s i f →
    ∃ s', exec i s = .next s' ∧ s'.fpsr.getLsbD 4 = s.fpsr.getLsbD 4 ∧
      ∀ e < elementCount s.cfg f, laneActive s i f e = true → isFinite f (laneOf s n f e) = true →
      ∃ k : ℤ, rationalValue f (laneOf s' d f e) = k ∧
        (fpcrRMode s.fpcr = 0b00#2 → RoundsTo .tieEven (unpackedValue s.cfg.featAfp s.fpcr f (laneOf s n f e)) k) ∧
        (fpcrRMode s.fpcr = 0b01#2 → k = ⌈unpackedValue s.cfg.featAfp s.fpcr f (laneOf s n f e)⌉) ∧
        (fpcrRMode s.fpcr = 0b10#2 → k = ⌊unpackedValue s.cfg.featAfp s.fpcr f (laneOf s n f e)⌋) ∧
        (fpcrRMode s.fpcr = 0b11#2 → RoundsTo .zero (unpackedValue s.cfg.featAfp s.fpcr f (laneOf s n f e)) k)

/-- FRINTX, both forms, with the two intended functions: values as FRINTI, and FPSR.IXC is set exactly when it was set
or some active finite element, taken after any flush to zero, is not an integer (R73, R74). -/
def Obligations.FrintxSignalsInexact : Prop :=
  ∀ (i : Instr) (f : Format) (s : State) (t : Size) (d : Fin 32) (g : Fin 8) (n : Fin 32),
    i = .frintxM t d g n ∨ i = .frintxZ t d g n → HasIntendedRoundInt s.cfg → HasIntendedMode s.cfg →
    CanComplete s i f →
    ∃ s', exec i s = .next s' ∧
      (s'.fpsr.getLsbD 4 = true ↔ s.fpsr.getLsbD 4 = true ∨
        ∃ e < elementCount s.cfg f, laneActive s i f e = true ∧ isFinite f (laneOf s n f e) = true ∧
          unpackedValue s.cfg.featAfp s.fpcr f (laneOf s n f e) ≠
            ⌊unpackedValue s.cfg.featAfp s.fpcr f (laneOf s n f e)⌋) ∧
      ∀ e < elementCount s.cfg f, laneActive s i f e = true → isFinite f (laneOf s n f e) = true →
      ∃ k : ℤ, rationalValue f (laneOf s' d f e) = k ∧
        RoundsTo (fpRoundingMode s.fpcr) (unpackedValue s.cfg.featAfp s.fpcr f (laneOf s n f e)) k

/-! ### Frames -/

/-- Whatever next state an instruction answers: every vector register but the destination, every predicate register,
FFR, FPCR, the condition flags, the general registers, the parameters, every FPSR bit other than IOC, IXC, IDC (with a
`FPRoundInt` other than the intended one: other than the six cumulative bits of R102) and every byte of the program text
are as before (R19, R21, R22, R26, R32, R46). -/
def Obligations.OnlyTheDestinationFlagsPcAndMarkChange : Prop :=
  ∀ (i : Instr) (s t : State), exec i s = .next t →
    (∀ n : Fin 32, n ≠ i.zd → t.z[n.val] = s.z[n.val]) ∧ t.p = s.p ∧ t.ffr = s.ffr ∧ t.fpcr = s.fpcr ∧
    (∀ b, 4 < b → b ≠ 7 → t.fpsr.getLsbD b = s.fpsr.getLsbD b) ∧
    (HasIntendedRoundInt s.cfg → ∀ b, b ≠ 0 → b ≠ 4 → b ≠ 7 → t.fpsr.getLsbD b = s.fpsr.getLsbD b) ∧
    t.nzcv = s.nzcv ∧ t.x = s.x ∧ t.sp = s.sp ∧ t.cfg = s.cfg ∧
    ∀ a, Memory.read t.text a = Memory.read s.text a

/-- The cumulative flags are sticky, and with the intended `FPRoundInt` only IOC, IXC and IDC can be set (R24). -/
def Obligations.FpsrFlagsOnlyAccumulate : Prop :=
  ∀ (i : Instr) (s t : State), exec i s = .next t →
    t.fpsr &&& s.fpsr = s.fpsr ∧
    (HasIntendedRoundInt s.cfg → t.fpsr &&& ~~~frintFlagMask = s.fpsr &&& ~~~frintFlagMask)

/-- With the intended `FPRoundInt`, an instruction other than FRINTX leaves the Inexact flag as it was (R24, R103). -/
def Obligations.InexactFlagOnlyFromFrintx : Prop :=
  ∀ (i : Instr) (s t : State), HasIntendedRoundInt s.cfg → isFrintx i = false → exec i s = .next t →
    t.fpsr.getLsbD 4 = s.fpsr.getLsbD 4

/-- No instruction faults, and one is refused only where it reaches its Operation and takes a floating-point trap
(R102), refused with the conditions of its active elements, or takes none and would move `pc` past 64 bits (R25,
decision D6). That a raise at the top of memory still raises, that the trap test comes first, and the conditions carried
are the model's reading, log entries 9 and 10. -/
def Obligations.RefusedOnlyForTrapOrPcWrap : Prop :=
  ∀ (i : Instr) (s : State),
    (∀ f, exec i s ≠ .fault f) ∧
    ∀ r, exec i s = .refused r → ∃ f, Reaches s i f ∧
      ((TrapTaken s i f ∧ ∃ l, r = .trappedFpException l ∧
          ∀ c, c ∈ l ↔ ∃ e < elementCount s.cfg f, laneActive s i f e = true ∧ c ∈ (laneRounded s i f e).2) ∨
       (¬ TrapTaken s i f ∧ 2 ^ 64 ≤ s.pc.toNat + 4 ∧ r = .pcWrap))

/-- Where an active element signals a condition whose trap is implemented and enabled, the instruction is refused by
name (R71, R102, R110; decision D9). That the refusal carries exactly the conditions its active elements signal, and
comes before the test of `pc + 4`, is the model's choice (log entry 9). -/
def Obligations.EnabledTrapIsRefused : Prop :=
  ∀ (i : Instr) (f : Format) (s : State), Reaches s i f → TrapTaken s i f →
    ∃ l, exec i s = .refused (.trappedFpException l) ∧
      ∀ c, c ∈ l ↔ ∃ e < elementCount s.cfg f, laneActive s i f e = true ∧ c ∈ (laneRounded s i f e).2

/-! ### The step -/

/-- Where the mark is clear and the bytes at an aligned `pc` decode to an instruction, the step is that instruction
(R71). -/
def Obligations.StepRunsTheDecodedInstruction : Prop :=
  ∀ (s : State) (bytes rest : List Byte) (i : Instr), s.mark = none → s.pc.toNat % 4 = 0 →
    Memory.wordBytes s.text s.pc.toNat = some bytes → decode bytes = .ok (i, rest) → step s = exec i s

/-- Where there is no instruction to run there is no next state: a set mark stops (R114), a misaligned `pc` and an
absent word are stuck (R38), and a word of no row is refused by name (R57). Decisions D5, D6, D7, D14. -/
def Obligations.NoStepWithoutAnInstruction : Prop :=
  ∀ s : State,
    (∀ e, s.mark = some e → step s = .fault (.stoppedByMark e)) ∧
    (s.mark = none → s.pc.toNat % 4 ≠ 0 → step s = .fault .stuckPcMisaligned) ∧
    (s.mark = none → s.pc.toNat % 4 = 0 → Memory.wordBytes s.text s.pc.toNat = none →
      step s = .fault .stuckNoWord) ∧
    (∀ w, s.mark = none → s.pc.toNat % 4 = 0 → Memory.wordBytes s.text s.pc.toNat = some (bytesOfWord w) →
      (∀ r ∈ rows, w &&& rowMask ≠ r.word) → step s = .refused (.notFrintEncoding w))

/-- The invariant of the machine (registers within VL and PL, RES0 bits zero, `pc` aligned, program text canonical; R15,
R19, R33, R36) is kept by every step. -/
def Obligations.StepKeepsTheInvariant : Prop :=
  ∀ s t : State, s.Inv → step s = .next t → t.Inv

/-- The reset state meets the invariant, with the fault mark clear and the trap enables clear (R33; the register values
are the model's choice, log entries 1 to 5). -/
def Obligations.ResetMeetsTheInvariant : Prop :=
  State.reset.Inv ∧ NoFaultRecorded State.reset ∧ TrapEnablesClear State.reset

/-- A step either sets the mark and changes nothing else, or leaves the mark clear, moves `pc` on by 4 without wrapping
and changes nothing but vector registers and FPSR (R25, R114; decisions D5, D6). -/
def Obligations.StepMarksOrAdvances : Prop :=
  ∀ s t : State, step s = .next t →
    s.mark = none ∧
    ((∃ e, t = { s with mark := some e }) ∨
     (t.mark = none ∧ t.pc.toNat = s.pc.toNat + 4 ∧ { t with z := s.z, fpsr := s.fpsr, pc := s.pc } = s))

/-- No further step exists from a state an exception was raised in (R114, decision D5). -/
def Obligations.NoStepAfterARaise : Prop :=
  ∀ (s t : State) (e : Raised), step s = .next t → t.mark = some e → step t = .fault (.stoppedByMark e)

/-- An UndefinedInstruction raised by a step records the word that was fetched (R60, R107). -/
def Obligations.UndefinedRecordsTheFetchedWord : Prop :=
  ∀ (s t : State) (w : Word), step s = .next t → t.mark = some (.undefinedInstruction w) →
    Memory.wordBytes s.text s.pc.toNat = some (bytesOfWord w)

/-- A word placed at `pc` is the next one decoded and run (R36, R37, R71; the loader is the model's, log entry 7). -/
def Obligations.PlacedWordRunsNext : Prop :=
  ∀ (s : State) (w : Word), s.mark = none → s.pc.toNat % 4 = 0 → Memory.wf s.text →
    step (s.withFetchWord 32 w.toNat) =
      match decodeWord w with
      | some i => exec i (s.withFetchWord 32 w.toNat)
      | none => .refused (.notFrintEncoding w)

/-! ### FPRoundInt -/

/-- `FPRoundInt` on a finite operand is exact rational rounding: the result is finite, its value is an integer, and that
integer is the operand's value (0 where the operand is flushed) rounded by the option (R98, R99, R100). -/
def Obligations.FpRoundIntRoundsExactly : Prop :=
  ∀ (afp : Bool) (fpcr : Word64) (r : Rounding) (exact : Bool) (f : Format) (op : BitVec f.width),
    isFinite f op = true →
    isFinite f (fpRoundInt afp fpcr r exact f op).1 = true ∧
    ∃ k : ℤ, rationalValue f (fpRoundInt afp fpcr r exact f op).1 = k ∧ RoundsTo r (unpackedValue afp fpcr f op) k

/-- R101: with DN 0 a quiet NaN is returned bit for bit and a signalling NaN with only its top fraction bit set; with DN
1 every NaN gives the Default NaN, whose sign is 1 exactly with FEAT_AFP and AH 1; a signalling NaN signals Invalid
Operation and a NaN signals nothing else, whatever the rounding option and `exact`. -/
def Obligations.FpRoundIntOfNaN : Prop :=
  ∀ (afp : Bool) (fpcr : Word64) (r : Rounding) (exact : Bool) (f : Format) (op : BitVec f.width),
    expField f op = 2 ^ f.expBits - 1 → fracField f op ≠ 0 →
    (fpRoundInt afp fpcr r exact f op).2 = (if op.getLsbD (f.fracBits - 1) = true then [] else [.invalidOp]) ∧
    (fpcrDN fpcr = false → ∀ b, (fpRoundInt afp fpcr r exact f op).1.getLsbD b =
      (op.getLsbD b || decide (b = f.fracBits - 1))) ∧
    (fpcrDN fpcr = true →
      (fpRoundInt afp fpcr r exact f op).1.msb = (afp && fpcrAH fpcr) ∧
      expField f (fpRoundInt afp fpcr r exact f op).1 = 2 ^ f.expBits - 1 ∧
      fracField f (fpRoundInt afp fpcr r exact f op).1 = 2 ^ (f.fracBits - 1))

/-- An infinity, and a finite operand that is not flushed and whose value is an integer, is returned unchanged with no
condition signalled, under every option (R98, R99, R72 item 4). -/
def Obligations.IntegralOperandIsUnchanged : Prop :=
  ∀ (afp : Bool) (fpcr : Word64) (r : Rounding) (exact : Bool) (f : Format) (op : BitVec f.width),
    (classify f op = .infinity ∨
      (isFinite f op = true ∧ isFlushed afp fpcr f op = false ∧ ∃ k : ℤ, rationalValue f op = k)) →
    fpRoundInt afp fpcr r exact f op = (op, [])

/-- The conditions of one element, the table of R103 with the FEAT_AFP branches of R96 (R103 is derived by the spec from
R96, R98, R101, R102). -/
def Obligations.ConditionsOfOneElement : Prop :=
  ∀ (afp : Bool) (fpcr : Word64) (r : Rounding) (exact : Bool) (f : Format) (op : BitVec f.width),
    (classify f op = .snan → (fpRoundInt afp fpcr r exact f op).2 = [.invalidOp]) ∧
    (classify f op = .qnan ∨ classify f op = .infinity ∨ classify f op = .zero →
      (fpRoundInt afp fpcr r exact f op).2 = []) ∧
    (isFlushed afp fpcr f op = true → (fpRoundInt afp fpcr r exact f op).2 =
      if f ≠ .half ∧ fpcrFZ fpcr = true ∧ (afp && fpcrAH fpcr) = false then [.inputDenorm] else []) ∧
    (isFinite f op = true → isFlushed afp fpcr f op = false → (fpRoundInt afp fpcr r exact f op).2 =
      if exact = true ∧ rationalValue f op ≠ ⌊rationalValue f op⌋ then [.inexact] else [])

/-- The sign bit of a result is the sign bit of its operand, except where a NaN is replaced by the Default NaN (R100,
R101). -/
def Obligations.SignOfTheOperandIsKept : Prop :=
  ∀ (afp : Bool) (fpcr : Word64) (r : Rounding) (exact : Bool) (f : Format) (op : BitVec f.width),
    fpcrDN fpcr = false ∨ (classify f op ≠ .qnan ∧ classify f op ≠ .snan) →
    (fpRoundInt afp fpcr r exact f op).1.msb = op.msb

/-- A result is never a Denormal and never a signalling NaN, and only Invalid Operation, Input Denormal and Inexact are
ever signalled (R100, R101). -/
def Obligations.ResultIsNeverDenormalOrSignalling : Prop :=
  ∀ (afp : Bool) (fpcr : Word64) (r : Rounding) (exact : Bool) (f : Format) (op : BitVec f.width),
    classify f (fpRoundInt afp fpcr r exact f op).1 ≠ .denormal ∧
    classify f (fpRoundInt afp fpcr r exact f op).1 ≠ .snan ∧
    ∀ c ∈ (fpRoundInt afp fpcr r exact f op).2, c = .invalidOp ∨ c = .inputDenorm ∨ c = .inexact

/-- `FPRoundInt` depends on FPCR only through DN, FZ, FZ16 and, with FEAT_AFP, AH and FIZ (R104, derived). -/
def Obligations.FpRoundIntReadsFiveFields : Prop :=
  ∀ (afp : Bool) (a b : Word64) (r : Rounding) (exact : Bool) (f : Format) (op : BitVec f.width),
    fpcrDN a = fpcrDN b → fpcrFZ a = fpcrFZ b → fpcrFZ16 a = fpcrFZ16 b →
    (afp = true → fpcrAH a = fpcrAH b ∧ fpcrFIZ a = fpcrFIZ b) →
    fpRoundInt afp a r exact f op = fpRoundInt afp b r exact f op

/-- Rounding a result again, by any option, changes nothing and signals nothing (R98, R99, R101). -/
def Obligations.RoundingAResultAgainChangesNothing : Prop :=
  ∀ (afp : Bool) (fpcr : Word64) (r r' : Rounding) (exact exact' : Bool) (f : Format) (op : BitVec f.width),
    fpRoundInt afp fpcr r' exact' f (fpRoundInt afp fpcr r exact f op).1 =
      ((fpRoundInt afp fpcr r exact f op).1, [])

/-! ### Whole-machine rules -/

/-- R97: the four values of RMode give nearest even, up, down and toward zero, never ties away (round to odd has no
constructor, log entry 6); the five mnemonics other than FRINTI and FRINTX do not call `FPRoundingMode`, so that another
function in its place changes nothing they do; and with the intended `FPRoundInt` they ignore RMode. `SveAccess` is
asked in both states and taken to answer alike (D4). -/
def Obligations.RModeSelectsTheCurrentMode : Prop :=
  (∀ fpcr : Word64,
    (fpcrRMode fpcr = 0b00#2 → fpRoundingMode fpcr = .tieEven) ∧
    (fpcrRMode fpcr = 0b01#2 → fpRoundingMode fpcr = .posInf) ∧
    (fpcrRMode fpcr = 0b10#2 → fpRoundingMode fpcr = .negInf) ∧
    (fpcrRMode fpcr = 0b11#2 → fpRoundingMode fpcr = .zero) ∧
    fpRoundingMode fpcr ≠ .tieAway) ∧
  (∀ (i : Instr) (s : State) (v : FunctionValue), usesCurrentMode i = false →
    checkSveEnabled { s with cfg := { s.cfg with fpRoundingMode := v } } = checkSveEnabled s →
    exec i { s with cfg := { s.cfg with fpRoundingMode := v } } =
      mapNext (fun t => { t with cfg := { t.cfg with fpRoundingMode := v } }) (exec i s)) ∧
  (∀ (i : Instr) (s : State) (fpcr : Word64), HasIntendedRoundInt s.cfg → usesCurrentMode i = false →
    (∀ b, b ≠ 22 → b ≠ 23 → fpcr.getLsbD b = s.fpcr.getLsbD b) →
    checkSveEnabled { s with fpcr := fpcr } = checkSveEnabled s →
    exec i { s with fpcr := fpcr } = mapNext (fun t => { t with fpcr := fpcr }) (exec i s))

/-- With the intended `FPRoundingMode`, FRINTI is, where it is not UNDEFINED, FRINTN, FRINTP, FRINTM or FRINTZ in every
effect, by RMode 00, 01, 10, 11 (R75, R76, R97); with the intended `FPRoundInt` too, FRINTX leaves, where it completes,
the vector registers that instruction leaves, in both forms (R73, R74; 95_test_vectors.md section 7 item 6). -/
def Obligations.CurrentModeIsTheFixedInstruction : Prop :=
  ∀ (s : State) (t : Size) (d : Fin 32) (g : Fin 8) (n : Fin 32), HasIntendedMode s.cfg →
    (isUndefined (.frintiM t d g n) s.cfg = false →
      exec (.frintiM t d g n) s =
        if fpcrRMode s.fpcr = 0b00#2 then exec (.frintnM t d g n) s
        else if fpcrRMode s.fpcr = 0b01#2 then exec (.frintpM t d g n) s
        else if fpcrRMode s.fpcr = 0b10#2 then exec (.frintmM t d g n) s
        else exec (.frintzM t d g n) s) ∧
    (isUndefined (.frintiZ t d g n) s.cfg = false →
      exec (.frintiZ t d g n) s =
        if fpcrRMode s.fpcr = 0b00#2 then exec (.frintnZ t d g n) s
        else if fpcrRMode s.fpcr = 0b01#2 then exec (.frintpZ t d g n) s
        else if fpcrRMode s.fpcr = 0b10#2 then exec (.frintmZ t d g n) s
        else exec (.frintzZ t d g n) s) ∧
    (∀ f, HasIntendedRoundInt s.cfg → CanComplete s (.frintxM t d g n) f →
      ∃ a b, exec (.frintxM t d g n) s = .next a ∧ a.z = b.z ∧ .next b =
        if fpcrRMode s.fpcr = 0b00#2 then exec (.frintnM t d g n) s
        else if fpcrRMode s.fpcr = 0b01#2 then exec (.frintpM t d g n) s
        else if fpcrRMode s.fpcr = 0b10#2 then exec (.frintmM t d g n) s
        else exec (.frintzM t d g n) s) ∧
    (∀ f, HasIntendedRoundInt s.cfg → CanComplete s (.frintxZ t d g n) f →
      ∃ a b, exec (.frintxZ t d g n) s = .next a ∧ a.z = b.z ∧ .next b =
        if fpcrRMode s.fpcr = 0b00#2 then exec (.frintnZ t d g n) s
        else if fpcrRMode s.fpcr = 0b01#2 then exec (.frintpZ t d g n) s
        else if fpcrRMode s.fpcr = 0b10#2 then exec (.frintmZ t d g n) s
        else exec (.frintzZ t d g n) s)

/-- With the intended `FPRoundInt`, FRINTX and FRINTI with the same operands leave the same state but for bit 4 of FPSR,
in both forms (R73 to R76). -/
def Obligations.FrintxIsFrintiButForInexact : Prop :=
  ∀ (s : State) (f : Format) (t : Size) (d : Fin 32) (g : Fin 8) (n : Fin 32), HasIntendedRoundInt s.cfg →
    (CanComplete s (.frintxM t d g n) f →
      ∃ a b, exec (.frintxM t d g n) s = .next a ∧ exec (.frintiM t d g n) s = .next b ∧
        { a with fpsr := b.fpsr } = b ∧ ∀ k, k ≠ 4 → a.fpsr.getLsbD k = b.fpsr.getLsbD k) ∧
    (CanComplete s (.frintxZ t d g n) f →
      ∃ a b, exec (.frintxZ t d g n) s = .next a ∧ exec (.frintiZ t d g n) s = .next b ∧
        { a with fpsr := b.fpsr } = b ∧ ∀ k, k ≠ 4 → a.fpsr.getLsbD k = b.fpsr.getLsbD k)

/-- With the intended `FPRoundInt`, an instruction whose destination is its source, run a second time, changes nothing
but `pc` (95_test_vectors.md section 7 item 4; R69, R98, R101). `SveAccess` is taken to pass again (D4). -/
def Obligations.RepeatingInPlaceChangesOnlyPc : Prop :=
  ∀ (i : Instr) (f : Format) (s t : State), HasIntendedRoundInt s.cfg → i.zd = i.zn → CanComplete s i f →
    exec i s = .next t → t.pc.toNat + 4 < 2 ^ 64 → checkSveEnabled t = none →
    exec i t = .next { t with pc := t.pc + 4#64 }

/-- R20: predicate bit `e * (esize DIV 8)` governs element `e`, which is rounded where the bit is 1 and kept or zeroed
where it is 0; and the other bits are ignored: changing any other bit of any predicate register changes nothing the
instruction does. `SveAccess` is asked in both states and taken to answer alike (D4). -/
def Obligations.NonGoverningBitsAreIgnored : Prop :=
  ∀ (i : Instr) (f : Format) (s : State), formatOfSize i.size = some f →
    (CanComplete s i f → ∃ t, exec i s = .next t ∧ ∀ e < elementCount s.cfg f, laneOf t i.zd f e =
      if s.p[i.pg.val].getLsbD (e * (f.width / 8)) = true then (laneRounded s i f e).1
      else if (constantsOf i).merging = true then laneOf s i.zd f e else 0#f.width) ∧
    ∀ p : Vector PVal 16, checkSveEnabled { s with p := p } = checkSveEnabled s →
      (∀ e < elementCount s.cfg f,
        p[i.pg.val].getLsbD (e * (f.width / 8)) = s.p[i.pg.val].getLsbD (e * (f.width / 8))) →
      exec i { s with p := p } = mapNext (fun t => { t with p := p }) (exec i s)

/-- With no active element a merging instruction changes nothing but `pc`, and a zeroing one also makes its destination
zero; FPSR is unchanged (R72 item 1). The registers are taken to fit VL, an invariant of the machine. -/
def Obligations.NoActiveElement : Prop :=
  ∀ (i : Instr) (f : Format) (s : State), RegistersFit s → Reaches s i f → s.pc.toNat + 4 < 2 ^ 64 →
    (∀ e < elementCount s.cfg f, laneActive s i f e = false) →
    exec i s = .next (if (constantsOf i).merging = true then { s with pc := s.pc + 4#64 }
      else { s with z := s.z.set i.zd.val 0#2048, pc := s.pc + 4#64 })

/-- No effect depends on the address the instruction runs at, nor on the program text (R35, R40, R44): moving both moves
only `pc`. `SveAccess` is asked in both states and taken to answer alike (D4). -/
def Obligations.EffectIsIndependentOfAddress : Prop :=
  ∀ (i : Instr) (s : State) (a : Word64) (m : Memory), s.pc.toNat + 4 < 2 ^ 64 → a.toNat + 4 < 2 ^ 64 →
    checkSveEnabled { s with pc := a, text := m } = checkSveEnabled s →
    exec i { s with pc := a, text := m } =
      mapNext (fun t => { t with pc := t.pc - s.pc + a, text := m }) (exec i s)

/-- The condition flags, the general registers, the stack pointers and FFR are neither read nor written (R19, R21, R26).
`SveAccess` is asked in both states and taken to answer alike (D4). -/
def Obligations.OtherRegistersAreNeitherReadNorWritten : Prop :=
  ∀ (i : Instr) (s : State) (nzcv : BitVec 4) (x : Vector Word64 31) (sp : Vector Word64 4) (ffr : PVal),
    checkSveEnabled { s with nzcv := nzcv, x := x, sp := sp, ffr := ffr } = checkSveEnabled s →
    exec i { s with nzcv := nzcv, x := x, sp := sp, ffr := ffr } =
      mapNext (fun t => { t with nzcv := nzcv, x := x, sp := sp, ffr := ffr }) (exec i s)

/-- Only the addressed registers are read: two states that agree on the source, the governing predicate, FPCR and, for a
merging form, the destination give the destination the same value and signal the same flags, whatever the other
registers hold (R32). `SveAccess` is taken to pass in both (D4). -/
def Obligations.OnlyNamedRegistersAreRead : Prop :=
  ∀ (i : Instr) (f : Format) (s : State) (z : Vector ZVal 32) (p : Vector PVal 16), CanComplete s i f →
    checkSveEnabled { s with z := z, p := p } = none →
    z[i.zn.val] = s.z[i.zn.val] → p[i.pg.val] = s.p[i.pg.val] →
    ((constantsOf i).merging = true → z[i.zd.val] = s.z[i.zd.val]) →
    ∃ t u, exec i s = .next t ∧ exec i { s with z := z, p := p } = .next u ∧
      u.z[i.zd.val] = t.z[i.zd.val] ∧ u.fpsr = t.fpsr ∧ u.pc = t.pc
end

