-- ==== Sys2Proof/Laws/Access.lean ====
section
/-! SUPPORT. The access check of R109 in the words of claims: each check of the ladder is `El1Denies` or `El2Denies`. -/

namespace Sys2Proof.Machine

/-- A two-bit enable field disables the current level exactly where it denies it. -/
theorem fieldDisables_iff (field : BitVec 2) (at01 : Bool) :
    fieldDisables field at01 = true ↔ FieldDenies field (at01 = true) := by
  revert field at01
  decide

/-- The CPACR_EL1 check of the field whose low bit is `lo`. -/
theorem trapsToEl1_iff (r : AccessRegs) (lo : Nat) :
    trapsToEl1 r lo = true ↔ El1Denies r (r.cpacrEl1.extractLsb' lo 2) := by
  have h := fieldDisables_iff (r.cpacrEl1.extractLsb' lo 2) (r.el == .el0)
  simp only [beq_iff_eq] at h
  simp only [trapsToEl1, inHostRegime, El1Denies, Bool.and_eq_true, Bool.or_eq_true, beq_iff_eq, h, Bool.not_eq_true',
    Bool.eq_false_iff, ne_eq, and_assoc]

/-- The CPTR_EL2 check of the field whose low bit is `lo`, or of the bit `bit`. -/
theorem trapsToEl2_iff (r : AccessRegs) (lo bit : Nat) :
    trapsToEl2 r lo bit = true ↔ El2Denies r (r.cptrEl2.extractLsb' lo 2) (r.cptrEl2.getLsbD bit) := by
  have h := fieldDisables_iff (r.cptrEl2.extractLsb' lo 2) (r.el == .el0 && r.tge)
  simp only [beq_iff_eq, Bool.and_eq_true] at h
  simp only [trapsToEl2, El2Denies, Bool.and_eq_true, and_assoc, bne_iff_ne, ne_eq]
  cases he : r.e2h
  · simp
  · simp [h]

/-- `CheckSVEEnabled()` under each instantiation of `SveAccess`. -/
theorem checkSveEnabled_enabled {s : State} (h : s.cfg.sveAccess = .enabled) : checkSveEnabled s = none := by
  simp only [checkSveEnabled, h]

theorem checkSveEnabled_trap {s : State} {k : AccessTrap} (h : s.cfg.sveAccess = .trap k) : checkSveEnabled s = some k := by
  simp only [checkSveEnabled, h]

theorem checkSveEnabled_registers {s : State} {r : AccessRegs} (h : s.cfg.sveAccess = .registers r) :
    checkSveEnabled s = firstTrap (accessLadder s.cfg r) := by
  simp only [checkSveEnabled, h]

theorem checkSveEnabled_ofState {s : State} {n : Nat} (h : s.cfg.sveAccess = .ofState n) :
    checkSveEnabled s = Config.freeSveAccess n s := by
  simp only [checkSveEnabled, h]

end Sys2Proof.Machine
end

