-- ==== Sys2Proof/Laws/Decode.lean ====
section
/-! SUPPORT. The fields of an encoded word: each field of `encodeFields` lies where the decoder reads it, and none of
them touches the bits of the row mask. -/

namespace Sys2Proof

theorem maskedFields (t : Size) (zd : Fin 32) (pg : Fin 8) (zn : Fin 32) :
    (t.toField.setWidth 32 <<< 22) &&& rowMask = 0#32 ∧ (BitVec.ofNat 32 pg.val <<< 10) &&& rowMask = 0#32 ∧
      (BitVec.ofNat 32 zn.val <<< 5) &&& rowMask = 0#32 ∧ BitVec.ofNat 32 zd.val &&& rowMask = 0#32 := by
  refine ⟨?_, ?_, ?_, ?_⟩
  · cases t <;> decide
  · revert pg; decide
  · revert zn; decide
  · revert zd; decide

/-- The fields leave the masked bits of a row's word as they are. -/
theorem encodeFields_masked (m : Word) (t : Size) (zd : Fin 32) (pg : Fin 8) (zn : Fin 32) (hm : m &&& rowMask = m) :
    encodeFields m t zd pg zn &&& rowMask = m := by
  obtain ⟨h1, h2, h3, h4⟩ := maskedFields t zd pg zn
  simp only [encodeFields, BitVec.and_or_distrib_right, hm, h1, h2, h3, h4, BitVec.or_zero]

theorem extractLsb'_or (x y : Word) (lo n : Nat) :
    (x ||| y).extractLsb' lo n = x.extractLsb' lo n ||| y.extractLsb' lo n := by
  apply BitVec.eq_of_getLsbD_eq
  intro k hk
  simp only [BitVec.getLsbD_extractLsb', BitVec.getLsbD_or, hk, decide_true, Bool.true_and]

/-- A row word has no bit in any of the four fields. -/
abbrev FieldsClear (m : Word) : Prop :=
  m.extractLsb' 22 2 = 0#2 ∧ m.extractLsb' 10 3 = 0#3 ∧ m.extractLsb' 5 5 = 0#5 ∧ m.extractLsb' 0 5 = 0#5

theorem sizeOfWord_encodeFields (m : Word) (t : Size) (zd : Fin 32) (pg : Fin 8) (zn : Fin 32) (hm : FieldsClear m) :
    sizeOfWord (encodeFields m t zd pg zn) = t := by
  have h2 : (BitVec.ofNat 32 pg.val <<< 10).extractLsb' 22 2 = 0#2 := by revert pg; decide
  have h3 : (BitVec.ofNat 32 zn.val <<< 5).extractLsb' 22 2 = 0#2 := by revert zn; decide
  have h4 : (BitVec.ofNat 32 zd.val).extractLsb' 22 2 = 0#2 := by revert zd; decide
  simp only [sizeOfWord, encodeFields, extractLsb'_or, hm.1, h2, h3, h4, BitVec.or_zero, BitVec.zero_or]
  cases t <;> decide

theorem pgOfWord_encodeFields (m : Word) (t : Size) (zd : Fin 32) (pg : Fin 8) (zn : Fin 32) (hm : FieldsClear m) :
    pgOfWord (encodeFields m t zd pg zn) = pg := by
  have h1 : (t.toField.setWidth 32 <<< 22).extractLsb' 10 3 = 0#3 := by cases t <;> decide
  have h3 : (BitVec.ofNat 32 zn.val <<< 5).extractLsb' 10 3 = 0#3 := by revert zn; decide
  have h4 : (BitVec.ofNat 32 zd.val).extractLsb' 10 3 = 0#3 := by revert zd; decide
  simp only [pgOfWord, encodeFields, extractLsb'_or, hm.2.1, h1, h3, h4, BitVec.or_zero, BitVec.zero_or]
  revert pg; decide

theorem znOfWord_encodeFields (m : Word) (t : Size) (zd : Fin 32) (pg : Fin 8) (zn : Fin 32) (hm : FieldsClear m) :
    znOfWord (encodeFields m t zd pg zn) = zn := by
  have h1 : (t.toField.setWidth 32 <<< 22).extractLsb' 5 5 = 0#5 := by cases t <;> decide
  have h2 : (BitVec.ofNat 32 pg.val <<< 10).extractLsb' 5 5 = 0#5 := by revert pg; decide
  have h4 : (BitVec.ofNat 32 zd.val).extractLsb' 5 5 = 0#5 := by revert zd; decide
  simp only [znOfWord, encodeFields, extractLsb'_or, hm.2.2.1, h1, h2, h4, BitVec.or_zero, BitVec.zero_or]
  revert zn; decide

theorem zdOfWord_encodeFields (m : Word) (t : Size) (zd : Fin 32) (pg : Fin 8) (zn : Fin 32) (hm : FieldsClear m) :
    zdOfWord (encodeFields m t zd pg zn) = zd := by
  have h1 : (t.toField.setWidth 32 <<< 22).extractLsb' 0 5 = 0#5 := by cases t <;> decide
  have h2 : (BitVec.ofNat 32 pg.val <<< 10).extractLsb' 0 5 = 0#5 := by revert pg; decide
  have h3 : (BitVec.ofNat 32 zn.val <<< 5).extractLsb' 0 5 = 0#5 := by revert zn; decide
  simp only [zdOfWord, encodeFields, extractLsb'_or, hm.2.2.2, h1, h2, h3, BitVec.or_zero, BitVec.zero_or]
  revert zd; decide

/-- No two rows match the same word (R60: "they are pairwise distinct"). -/
theorem rows_pairwise : rows.Pairwise (fun a b => a.word ≠ b.word) := by decide

/-- Every row's word lies within the mask and has its fields clear. -/
theorem rows_clear : ∀ r ∈ rows, r.word &&& rowMask = r.word ∧ FieldsClear r.word := by decide

/-- The decoder's search finds the row whose word it looks for. -/
theorem find_row : ∀ r ∈ rows, rows.find? (fun r' => r.word == r'.word) = some r := by
  simp only [rows, List.forall_mem_cons]
  exact ⟨rfl, rfl, rfl, rfl, rfl, rfl, rfl, rfl, rfl, rfl, rfl, rfl, rfl, rfl, by simp⟩

/-- A word is its masked bits with its four fields added: no bit is dropped (R52). -/
theorem encodeFields_fieldsOfWord (w : Word) :
    encodeFields (w &&& rowMask) (sizeOfWord w) (zdOfWord w) (pgOfWord w) (znOfWord w) = w := by
  have hs : (Size.ofField (w.extractLsb' 22 2)).toField = w.extractLsb' 22 2 := by
    generalize w.extractLsb' 22 2 = b; revert b; decide
  unfold encodeFields sizeOfWord zdOfWord pgOfWord znOfWord
  rw [hs]
  apply BitVec.eq_of_getLsbD_eq
  intro k hk
  have hg : ∀ n (x : BitVec n), BitVec.ofNat 32 x.toFin.val = x.setWidth 32 := fun n x => by
    apply BitVec.eq_of_toNat_eq; simp
  simp only [hg, BitVec.getLsbD_or, BitVec.getLsbD_and, BitVec.getLsbD_shiftLeft, BitVec.getLsbD_setWidth,
    BitVec.getLsbD_extractLsb']
  have hr : rowMask.getLsbD k = decide (¬ (22 ≤ k ∧ k < 24 ∨ k < 13)) := by
    revert hk; revert k; decide
  rw [hr]
  have hk5 : k - 5 < 32 := by omega
  have hk10 : k - 10 < 32 := by omega
  have hk22 : k - 22 < 32 := by omega
  have : k < 5 ∨ 5 ≤ k ∧ k < 10 ∨ 10 ≤ k ∧ k < 13 ∨ 13 ≤ k ∧ k < 22 ∨ 22 ≤ k ∧ k < 24 ∨ 24 ≤ k := by omega
  rcases this with h | h | h | h | h | h
  · cases hb : w[k] <;> simp [hb, show k < 22 from by omega, show k < 10 from by omega, h, hk]
  · cases hb : w[k] <;> simp [hb, show k < 22 from by omega, show k < 10 from by omega, show ¬ k < 5 from by omega,
      hk, show k - 5 < 5 from by omega, show 5 + (k - 5) = k from by omega, hk5]
  · cases hb : w[k] <;> simp [hb, show k < 22 from by omega, show ¬ k < 10 from by omega, show ¬ k < 5 from by omega,
      hk, show k - 10 < 3 from by omega, show ¬ k - 5 < 5 from by omega, show 10 + (k - 10) = k from by omega, hk10]
  · cases hb : w[k] <;> simp [hb, show k < 22 from by omega, show ¬ k < 10 from by omega, show ¬ k < 5 from by omega,
      hk, show ¬ k - 10 < 3 from by omega, show ¬ k - 5 < 5 from by omega]
    omega
  · cases hb : w[k] <;> simp [hb, show ¬ k < 22 from by omega, show ¬ k < 10 from by omega, show ¬ k < 5 from by omega,
      hk, show ¬ k - 10 < 3 from by omega, show ¬ k - 5 < 5 from by omega, show k - 22 < 2 from by omega,
      show 22 + (k - 22) = k from by omega, hk22]
  · cases hb : w[k] <;> simp [hb, show ¬ k < 22 from by omega, show ¬ k < 10 from by omega, show ¬ k < 5 from by omega,
      hk, show ¬ k - 10 < 3 from by omega, show ¬ k - 5 < 5 from by omega, show ¬ k - 22 < 2 from by omega]
    omega

/-- What each row fills in: the word, and the fields read back. -/
theorem row_instr : ∀ r ∈ rows, ∀ (t : Size) (d : Fin 32) (g : Fin 8) (n : Fin 32),
    encode (r.instr t d g n) = encodeFields r.word t d g n ∧ (r.instr t d g n).size = t ∧ (r.instr t d g n).zd = d ∧
    (r.instr t d g n).pg = g ∧ (r.instr t d g n).zn = n := by
  simp only [rows, List.forall_mem_cons]
  refine ⟨?_, ?_, ?_, ?_, ?_, ?_, ?_, ?_, ?_, ?_, ?_, ?_, ?_, ?_, by simp⟩ <;> intro t d g n <;> exact ⟨rfl, rfl, rfl, rfl, rfl⟩

/-- A word that decodes matches a row, whose fields it fills in (R60). -/
theorem decodeWord_some {w : Word} {i : Instr} (h : decodeWord w = some i) :
    ∃ r ∈ rows, w &&& rowMask = r.word ∧ i = r.instr (sizeOfWord w) (zdOfWord w) (pgOfWord w) (znOfWord w) := by
  unfold decodeWord at h
  rw [Option.map_eq_some_iff] at h
  obtain ⟨r, hr, rfl⟩ := h
  exact ⟨r, List.mem_of_find?_eq_some hr, by simpa using List.find?_some hr, rfl⟩

end Sys2Proof
end

