-- ==== Sys2Proof/Laws/Operands.lean ====
section
/-! SUPPORT. The laws of elements and register containers: reading an element after writing one, and the bits of a
container below and above its length. -/

namespace Sys2Proof.Machine

@[simp] theorem getLsbD_elem {w : Nat} (v : BitVec w) (e size k : Nat) :
    (elem v e size).getLsbD k = (decide (k < size) && v.getLsbD (e * size + k)) := by
  simp [elem, BitVec.getLsbD_extractLsb']

@[simp] theorem getLsbD_setElem {w : Nat} (v : BitVec w) (e size : Nat) (x : BitVec size) (k : Nat) :
    (setElem v e size x).getLsbD k =
      (decide (k < w) && if e * size ≤ k ∧ k < e * size + size then x.getLsbD (k - e * size) else v.getLsbD k) := by
  unfold setElem
  by_cases hk : k < w
  · by_cases h1 : e * size ≤ k
    · by_cases h2 : k < e * size + size
      · have h3 : k - e * size < size := by omega
        simp [hk, h1, h2, h3, Nat.not_lt.mpr h1]
      · have h3 : ¬ k - e * size < size := by omega
        simp [hk, h1, h2, h3, Nat.not_lt.mpr h1]
        exact fun h => absurd (BitVec.lt_of_getLsbD h) h3
    · have h3 : k < e * size := by omega
      simp [hk, h1, h3]
  · simp [hk]

/-- An element reads back as written, where it lies within the vector. -/
theorem elem_setElem_same {w : Nat} (v : BitVec w) (e size : Nat) (x : BitVec size) (h : e * size + size ≤ w) :
    elem (setElem v e size x) e size = x := by
  apply BitVec.eq_of_getLsbD_eq
  intro k hk
  rw [getLsbD_elem, getLsbD_setElem]
  simp [hk, show e * size + k < w from by omega]

/-- Writing an element leaves every other element alone. -/
theorem elem_setElem_other {w : Nat} (v : BitVec w) (e e' size : Nat) (x : BitVec size) (h : e ≠ e') :
    elem (setElem v e size x) e' size = elem v e' size := by
  apply BitVec.eq_of_getLsbD_eq
  intro k hk
  have hlt : ¬ (e * size ≤ e' * size + k ∧ e' * size + k < e * size + size) := by
    rintro ⟨h1, h2⟩
    rcases Nat.lt_or_gt_of_ne h with h | h
    · have := Nat.mul_le_mul_right size (Nat.succ_le_of_lt h)
      rw [Nat.succ_mul] at this; omega
    · have := Nat.mul_le_mul_right size (Nat.succ_le_of_lt h)
      rw [Nat.succ_mul] at this; omega
  by_cases hw : e' * size + k < w
  · rw [getLsbD_elem, getLsbD_elem, getLsbD_setElem, if_neg hlt]
    simp [hw]
  · rw [getLsbD_elem, getLsbD_elem, BitVec.getLsbD_of_ge _ _ (Nat.le_of_not_lt hw),
      BitVec.getLsbD_of_ge v _ (Nat.le_of_not_lt hw)]

@[simp] theorem getLsbD_lowBits {w : Nat} (n : Nat) (v : BitVec w) (k : Nat) :
    (lowBits n v).getLsbD k = (decide (k < n) && v.getLsbD k) := by
  unfold lowBits
  by_cases hk : k < w
  · simp [BitVec.getLsbD_setWidth, hk]
  · simp [BitVec.getLsbD_setWidth, hk, BitVec.getLsbD_of_ge v _ (Nat.le_of_not_lt hk)]

@[simp] theorem lowBits_lowBits {w : Nat} (n : Nat) (v : BitVec w) : lowBits n (lowBits n v) = lowBits n v := by
  apply BitVec.eq_of_getLsbD_eq
  intro k _
  simp

@[simp] theorem lowBits_zero {w : Nat} (n : Nat) : lowBits n (0#w) = 0#w := by
  apply BitVec.eq_of_getLsbD_eq
  intro k _
  simp

/-- Truncating a container to its length does not touch the elements within the length. -/
theorem elem_lowBits {w : Nat} (n : Nat) (v : BitVec w) (e size : Nat) (h : e * size + size ≤ n) :
    elem (lowBits n v) e size = elem v e size := by
  apply BitVec.eq_of_getLsbD_eq
  intro k hk
  rw [getLsbD_elem, getLsbD_elem, getLsbD_lowBits]
  simp [show e * size + k < n from by omega]

@[simp] theorem elem_zero {w : Nat} (e size : Nat) : elem (0#w) e size = 0#size := by
  apply BitVec.eq_of_getLsbD_eq
  intro k _
  simp

/-- Writing an element within the length keeps a container within the length. -/
theorem lowBits_setElem {w : Nat} (n : Nat) (v : BitVec w) (e size : Nat) (x : BitVec size)
    (h : e * size + size ≤ n) (hv : lowBits n v = v) : lowBits n (setElem v e size x) = setElem v e size x := by
  apply BitVec.eq_of_getLsbD_eq
  intro k hk
  by_cases hn : k < n
  · simp [hn]
  · have hz : v.getLsbD k = false := by rw [← hv]; simp [hn]
    simp [hn, hz, show ¬ k < e * size + size from by omega]

theorem vl_le (c : Config) : c.vl ≤ 2048 := by
  have := c.len.isLt
  unfold Config.vl
  omega

theorem pl_le (c : Config) : c.pl ≤ 256 := by
  have := vl_le c
  unfold Config.pl
  omega

theorem width_pos (f : Format) : 0 < f.width := by cases f <;> decide

/-- The elements cover the vector exactly: `elements * esize = VL` (R5). -/
theorem elementCount_mul_width (c : Config) (f : Format) : elementCount c f * f.width = c.vl := by
  unfold elementCount Config.vl
  cases f <;> simp only [Format.width] <;> omega

/-- Every element lies within VL. -/
theorem lane_within (c : Config) (f : Format) {e : Nat} (h : e < elementCount c f) :
    e * f.width + f.width ≤ c.vl := by
  rw [← elementCount_mul_width c f, ← Nat.succ_mul]
  exact Nat.mul_le_mul_right _ h

/-- The governing bit of every element lies within PL (R105). -/
theorem governingBit_lt (c : Config) (f : Format) {e : Nat} (h : e < elementCount c f) :
    e * (f.width / 8) < c.pl := by
  have := lane_within c f h
  unfold Config.pl
  cases f <;> simp only [Format.width] at * <;> omega

/-- Truncating a predicate to PL does not change which elements are active. -/
theorem activeElement_lowBits (c : Config) (f : Format) (pred : PVal) {e : Nat} (h : e < elementCount c f) :
    activeElement (lowBits c.pl pred) e f.width = activeElement pred e f.width := by
  simp [activeElement, governingBit_lt c f h]

/-- Two containers within the length that agree on every element are equal. -/
theorem eq_of_elem_eq {w : Nat} (c : Config) (f : Format) {u v : BitVec w} (hu : lowBits c.vl u = u) (hv : lowBits c.vl v = v)
    (h : ∀ e < elementCount c f, elem u e f.width = elem v e f.width) : u = v := by
  apply BitVec.eq_of_getLsbD_eq
  intro k hk
  by_cases hn : k < c.vl
  · have hw := width_pos f
    have he : k / f.width < elementCount c f := by
      rw [Nat.div_lt_iff_lt_mul hw, elementCount_mul_width]
      exact hn
    have hb := congrArg (fun x => x.getLsbD (k % f.width)) (h _ he)
    simp only [getLsbD_elem, Nat.mod_lt k hw, Nat.div_add_mod', decide_true, Bool.true_and] at hb
    exact hb
  · rw [← hu, ← hv, getLsbD_lowBits, getLsbD_lowBits]
    simp only [hn, decide_false, Bool.false_and]

end Sys2Proof.Machine
end

