-- ==== Sys2Proof/Laws/State.lean ====
section
/-! SUPPORT. One lemma per field of the state for each update the machine makes, and what the accessors read after it. -/

namespace Sys2Proof.Machine

section
variable (s : State)

@[simp] theorem writeZ_cfg (d : Fin 32) (v : ZVal) : (writeZ s d v).cfg = s.cfg := rfl
@[simp] theorem writeZ_text (d : Fin 32) (v : ZVal) : (writeZ s d v).text = s.text := rfl
@[simp] theorem writeZ_z (d : Fin 32) (v : ZVal) : (writeZ s d v).z = s.z.set d.val (lowBits s.cfg.vl v) := rfl
@[simp] theorem writeZ_p (d : Fin 32) (v : ZVal) : (writeZ s d v).p = s.p := rfl
@[simp] theorem writeZ_ffr (d : Fin 32) (v : ZVal) : (writeZ s d v).ffr = s.ffr := rfl
@[simp] theorem writeZ_fpcr (d : Fin 32) (v : ZVal) : (writeZ s d v).fpcr = s.fpcr := rfl
@[simp] theorem writeZ_fpsr (d : Fin 32) (v : ZVal) : (writeZ s d v).fpsr = s.fpsr := rfl
@[simp] theorem writeZ_pc (d : Fin 32) (v : ZVal) : (writeZ s d v).pc = s.pc := rfl
@[simp] theorem writeZ_mark (d : Fin 32) (v : ZVal) : (writeZ s d v).mark = s.mark := rfl
@[simp] theorem writeZ_nzcv (d : Fin 32) (v : ZVal) : (writeZ s d v).nzcv = s.nzcv := rfl
@[simp] theorem writeZ_x (d : Fin 32) (v : ZVal) : (writeZ s d v).x = s.x := rfl
@[simp] theorem writeZ_sp (d : Fin 32) (v : ZVal) : (writeZ s d v).sp = s.sp := rfl

@[simp] theorem orFpsr_cfg (flags : Word64) : (orFpsr s flags).cfg = s.cfg := rfl
@[simp] theorem orFpsr_text (flags : Word64) : (orFpsr s flags).text = s.text := rfl
@[simp] theorem orFpsr_z (flags : Word64) : (orFpsr s flags).z = s.z := rfl
@[simp] theorem orFpsr_p (flags : Word64) : (orFpsr s flags).p = s.p := rfl
@[simp] theorem orFpsr_ffr (flags : Word64) : (orFpsr s flags).ffr = s.ffr := rfl
@[simp] theorem orFpsr_fpcr (flags : Word64) : (orFpsr s flags).fpcr = s.fpcr := rfl
@[simp] theorem orFpsr_fpsr (flags : Word64) : (orFpsr s flags).fpsr = s.fpsr ||| flags := rfl
@[simp] theorem orFpsr_pc (flags : Word64) : (orFpsr s flags).pc = s.pc := rfl
@[simp] theorem orFpsr_mark (flags : Word64) : (orFpsr s flags).mark = s.mark := rfl
@[simp] theorem orFpsr_nzcv (flags : Word64) : (orFpsr s flags).nzcv = s.nzcv := rfl
@[simp] theorem orFpsr_x (flags : Word64) : (orFpsr s flags).x = s.x := rfl
@[simp] theorem orFpsr_sp (flags : Word64) : (orFpsr s flags).sp = s.sp := rfl

@[simp] theorem placeAtPc_cfg (w : Word) : (placeAtPc s w).cfg = s.cfg := rfl
@[simp] theorem placeAtPc_text (w : Word) : (placeAtPc s w).text = Memory.writeBytes s.text s.pc.toNat (bytesOfWord w) := rfl
@[simp] theorem placeAtPc_z (w : Word) : (placeAtPc s w).z = s.z := rfl
@[simp] theorem placeAtPc_p (w : Word) : (placeAtPc s w).p = s.p := rfl
@[simp] theorem placeAtPc_ffr (w : Word) : (placeAtPc s w).ffr = s.ffr := rfl
@[simp] theorem placeAtPc_fpcr (w : Word) : (placeAtPc s w).fpcr = s.fpcr := rfl
@[simp] theorem placeAtPc_fpsr (w : Word) : (placeAtPc s w).fpsr = s.fpsr := rfl
@[simp] theorem placeAtPc_pc (w : Word) : (placeAtPc s w).pc = s.pc := rfl
@[simp] theorem placeAtPc_mark (w : Word) : (placeAtPc s w).mark = s.mark := rfl
@[simp] theorem placeAtPc_nzcv (w : Word) : (placeAtPc s w).nzcv = s.nzcv := rfl
@[simp] theorem placeAtPc_x (w : Word) : (placeAtPc s w).x = s.x := rfl
@[simp] theorem placeAtPc_sp (w : Word) : (placeAtPc s w).sp = s.sp := rfl

@[simp] theorem start_cfg (l : Launch) : (l.start s).cfg = s.cfg := rfl
@[simp] theorem start_text (l : Launch) : (l.start s).text = Memory.writeBytes [] l.base.toNat (bytesOfWords l.words) := rfl
@[simp] theorem start_z (l : Launch) : (l.start s).z = s.z := rfl
@[simp] theorem start_p (l : Launch) : (l.start s).p = s.p := rfl
@[simp] theorem start_ffr (l : Launch) : (l.start s).ffr = s.ffr := rfl
@[simp] theorem start_fpcr (l : Launch) : (l.start s).fpcr = s.fpcr := rfl
@[simp] theorem start_fpsr (l : Launch) : (l.start s).fpsr = s.fpsr := rfl
@[simp] theorem start_pc (l : Launch) : (l.start s).pc = l.base := rfl
@[simp] theorem start_mark (l : Launch) : (l.start s).mark = none := rfl
@[simp] theorem start_nzcv (l : Launch) : (l.start s).nzcv = s.nzcv := rfl
@[simp] theorem start_x (l : Launch) : (l.start s).x = s.x := rfl
@[simp] theorem start_sp (l : Launch) : (l.start s).sp = s.sp := rfl

end

end Sys2Proof.Machine
end

