-- ==== Sys2Proof/Laws/Frint.lean ====
section
/-! SUPPORT. What the shared Operation does, said once: the element loop element by element, the conditions it
signals, and the five ways an instruction can end (`exec_cases`). -/

namespace Sys2Proof.Machine

/-! ### The element loop -/

section
variable {w : Nat} (esize : Nat) (mask : PVal) (operand : BitVec w)
  (round : BitVec esize → BitVec esize × List FpExc) (start : BitVec w)

/-- Elements the loop has not reached keep the start vector's value. -/
theorem elem_roundLoop_of_ge (n e : Nat) (h : n ≤ e) :
    elem (roundLoop esize mask operand round start n).1 e esize = elem start e esize := by
  induction n with
  | zero => rfl
  | succ n ih =>
    unfold roundLoop
    split
    · exact (elem_setElem_other _ n e esize _ (by omega)).trans (ih (by omega))
    · exact ih (by omega)

/-- The loop element by element (R69): an active element is rounded, an inactive one keeps the start vector's value. -/
theorem elem_roundLoop (n e : Nat) (h : e < n) (hw : n * esize ≤ w) :
    elem (roundLoop esize mask operand round start n).1 e esize =
      if activeElement mask e esize then (round (elem operand e esize)).1 else elem start e esize := by
  induction n with
  | zero => omega
  | succ n ih =>
    rw [Nat.succ_mul] at hw
    unfold roundLoop
    rcases Nat.lt_succ_iff_lt_or_eq.mp h with h | rfl
    · split
      · exact (elem_setElem_other _ n e esize _ (by omega)).trans (ih h (by omega))
      · exact ih h (by omega)
    · cases activeElement mask e esize
      · simpa using elem_roundLoop_of_ge esize mask operand round start e e (Nat.le_refl e)
      · simpa using elem_setElem_same _ e esize _ (by omega)

/-- The conditions the loop signals are those of its active elements. -/
theorem mem_roundLoop (n : Nat) (c : FpExc) :
    c ∈ (roundLoop esize mask operand round start n).2 ↔
      ∃ e < n, activeElement mask e esize = true ∧ c ∈ (round (elem operand e esize)).2 := by
  induction n with
  | zero => simp [roundLoop]
  | succ n ih =>
    unfold roundLoop
    split
    · rename_i ha
      rw [List.mem_append, ih]
      constructor
      · rintro (⟨e, he, h⟩ | h)
        · exact ⟨e, by omega, h⟩
        · exact ⟨n, by omega, ha, h⟩
      · rintro ⟨e, he, h⟩
        rcases Nat.lt_succ_iff_lt_or_eq.mp he with he | rfl
        · exact .inl ⟨e, he, h⟩
        · exact .inr h.2
    · rename_i ha
      rw [ih]
      constructor
      · rintro ⟨e, he, h⟩
        exact ⟨e, by omega, h⟩
      · rintro ⟨e, he, h⟩
        rcases Nat.lt_succ_iff_lt_or_eq.mp he with he | rfl
        · exact ⟨e, he, h⟩
        · exact absurd h.1 ha

/-- The loop stays within the vector length its start vector lies in. -/
theorem lowBits_roundLoop (m n : Nat) (hn : n * esize ≤ m) (hs : lowBits m start = start) :
    lowBits m (roundLoop esize mask operand round start n).1 = (roundLoop esize mask operand round start n).1 := by
  induction n with
  | zero => exact hs
  | succ n ih =>
    rw [Nat.succ_mul] at hn
    unfold roundLoop
    split
    · exact lowBits_setElem m _ n esize _ hn (ih (by omega))
    · exact ih (by omega)

end

/-- The loop reads only the governing bits of its mask (R68). -/
theorem roundLoop_congr_mask {w : Nat} (esize : Nat) (mask mask' : PVal) (operand : BitVec w)
    (round : BitVec esize → BitVec esize × List FpExc) (start : BitVec w) (n : Nat)
    (h : ∀ e < n, activeElement mask e esize = activeElement mask' e esize) :
    roundLoop esize mask operand round start n = roundLoop esize mask' operand round start n := by
  induction n with
  | zero => rfl
  | succ n ih => simp only [roundLoop, ih (fun e he => h e (by omega)), h n (by omega)]

/-- With no active element the loop leaves the start vector and signals nothing. -/
theorem roundLoop_none {w : Nat} (esize : Nat) (mask : PVal) (operand : BitVec w)
    (round : BitVec esize → BitVec esize × List FpExc) (start : BitVec w) (n : Nat)
    (h : ∀ e < n, activeElement mask e esize = false) :
    roundLoop esize mask operand round start n = (start, []) := by
  induction n with
  | zero => rfl
  | succ n ih =>
    rw [roundLoop, ih (fun e he => h e (by omega)), h n (by omega)]; rfl

/-! ### The flags -/

/-- A bit of the flag union is set where some condition has it as its cumulative bit. -/
theorem getLsbD_fpFlags (l : List FpExc) (b : Nat) :
    (fpFlags l).getLsbD b = true ↔ ∃ c ∈ l, c.cumulativeBit = b := by
  induction l with
  | nil => simp [fpFlags]
  | cons c rest ih =>
    have hc : (BitVec.twoPow 64 c.cumulativeBit).getLsbD b = decide (c.cumulativeBit = b) := by
      rw [BitVec.getLsbD_twoPow]
      cases c <;> rfl
    simp only [fpFlags, BitVec.getLsbD_or, hc, Bool.or_eq_true, ih, decide_eq_true_eq, List.mem_cons,
      exists_eq_or_imp]

/-! ### One instruction -/

/-- Every meaning is the shared Operation under its class's constants. -/
theorem exec_eq_frint (i : Instr) (s : State) :
    exec i s = frint (constantsOf i) (encode i) i.size i.zd i.pg i.zn s := by
  cases i <;> rfl

theorem anyActiveElement_iff (mask : PVal) (esize n : Nat) :
    anyActiveElement mask esize n = true ↔ ∃ e < n, activeElement mask e esize = true := by
  simp [anyActiveElement]

/-- The Operation's result vector and conditions for an instruction of format `f`. -/
def operationOf (i : Instr) (f : Format) (s : State) : ZVal × List FpExc :=
  frintOperation (constantsOf i) f i.zd i.pg i.zn s

/-- The state a completed instruction leaves (R71). -/
def completed (i : Instr) (f : Format) (s : State) : State :=
  { orFpsr (writeZ s i.zd (operationOf i f s).1) (fpFlags (operationOf i f s).2) with pc := s.pc + 4#64 }

theorem readP_active (s : State) (i : Instr) (f : Format) {e : Nat} (h : e < elementCount s.cfg f) :
    activeElement (readP s i.pg) e f.width = laneActive s i f e :=
  activeElement_lowBits s.cfg f s.p[i.pg.val] h

theorem elem_readZ (s : State) (n : Fin 32) (f : Format) {e : Nat} (h : e < elementCount s.cfg f) :
    elem (readZ s n) e f.width = laneOf s n f e :=
  elem_lowBits s.cfg.vl s.z[n.val] e f.width (lane_within s.cfg f h)

theorem count_mul_le (c : Config) (f : Format) : elementCount c f * f.width ≤ 2048 := by
  rw [elementCount_mul_width]
  exact vl_le c

/-- The operand of R67 read at an active element: the arm `Zeros(VL)` is unobservable (R69). -/
theorem operand_of_active (s : State) (i : Instr) (f : Format) {e : Nat} (h : e < elementCount s.cfg f)
    (ha : laneActive s i f e = true) :
    elem (if anyActiveElement (readP s i.pg) f.width (elementCount s.cfg f) then readZ s i.zn else 0#2048) e f.width =
      laneOf s i.zn f e := by
  have hany : anyActiveElement (readP s i.pg) f.width (elementCount s.cfg f) = true :=
    (anyActiveElement_iff _ _ _).mpr ⟨e, h, (readP_active s i f h).trans ha⟩
  rw [hany]
  exact elem_readZ s i.zn f h

/-- The Operation's result element by element (R69). -/
theorem elem_operationOf (i : Instr) (f : Format) (s : State) {e : Nat} (h : e < elementCount s.cfg f) :
    elem (operationOf i f s).1 e f.width =
      if laneActive s i f e then (laneRounded s i f e).1
      else if (constantsOf i).merging then laneOf s i.zd f e else 0#f.width := by
  unfold operationOf frintOperation
  refine (elem_roundLoop _ _ _ _ _ _ e h (count_mul_le s.cfg f)).trans ?_
  rw [readP_active s i f h]
  cases ha : laneActive s i f e
  · cases (constantsOf i).merging
    · exact elem_zero e f.width
    · exact elem_readZ s i.zd f h
  · rw [if_pos rfl, if_pos rfl, operand_of_active s i f h ha]
    rfl

/-- The conditions the Operation signals are those of its active elements (R69). -/
theorem mem_operationOf (i : Instr) (f : Format) (s : State) (c : FpExc) :
    c ∈ (operationOf i f s).2 ↔
      ∃ e < elementCount s.cfg f, laneActive s i f e = true ∧ c ∈ (laneRounded s i f e).2 := by
  unfold operationOf frintOperation
  refine (mem_roundLoop _ _ _ _ _ _ c).trans ?_
  constructor
  · rintro ⟨e, he, ha, hc⟩
    rw [readP_active s i f he] at ha
    rw [operand_of_active s i f he ha] at hc
    exact ⟨e, he, ha, hc⟩
  · rintro ⟨e, he, ha, hc⟩
    refine ⟨e, he, (readP_active s i f he).trans ha, ?_⟩
    rw [operand_of_active s i f he ha]
    exact hc

/-- The Operation's result lies within VL. -/
theorem lowBits_operationOf (i : Instr) (f : Format) (s : State) :
    lowBits s.cfg.vl (operationOf i f s).1 = (operationOf i f s).1 := by
  unfold operationOf frintOperation
  refine lowBits_roundLoop _ _ _ _ _ _ _ (elementCount_mul_width s.cfg f).le ?_
  cases (constantsOf i).merging
  · exact lowBits_zero _
  · exact lowBits_lowBits _ _

/-- The Operation depends on a state through VL, Z, P and the element function alone. -/
theorem operationOf_congr (i : Instr) (f : Format) (s s' : State) (hl : s'.cfg.len = s.cfg.len) (hz : s'.z = s.z)
    (hp : s'.p = s.p)
    (h : configRoundInt s'.cfg s'.fpcr (roundingOf i s') (constantsOf i).exact f =
      configRoundInt s.cfg s.fpcr (roundingOf i s) (constantsOf i).exact f) :
    operationOf i f s' = operationOf i f s := by
  unfold roundingOf at h
  have hP : readP s' i.pg = readP s i.pg := by simp only [readP, Config.pl, Config.vl, hl, hp]
  have hZ : ∀ n, readZ s' n = readZ s n := fun n => by simp only [readZ, Config.vl, hl, hz]
  have hE : elementCount s'.cfg f = elementCount s.cfg f := by simp only [elementCount, Config.vl, hl]
  simp only [operationOf, frintOperation, hP, hZ, hE, h]

/-- What an element becomes where `FPRoundInt` has its intended value (R98, D16). -/
theorem laneRounded_intended {s : State} (h : HasIntendedRoundInt s.cfg) (i : Instr) (f : Format) (e : Nat) :
    laneRounded s i f e =
      fpRoundInt s.cfg.featAfp s.fpcr (roundingOf i s) (constantsOf i).exact f (laneOf s i.zn f e) :=
  h _ _ _ _ _

/-- The rounding of an instruction where `FPRoundingMode` has its intended value (R65, R97, D16). -/
theorem roundingOf_intended {s : State} (h : HasIntendedMode s.cfg) (i : Instr) :
    roundingOf i s = optionOf i (fpRoundingMode s.fpcr) := by
  cases i <;> first | rfl | exact h _

/-- The trap test of the Operation, said on the elements. -/
theorem fpTrapTaken_iff (i : Instr) (f : Format) (s : State) :
    fpTrapTaken s.cfg s.fpcr (operationOf i f s).2 = true ↔ TrapTaken s i f := by
  simp only [fpTrapTaken, Bool.and_eq_true, List.any_eq_true, mem_operationOf, TrapTaken]
  refine and_congr_right fun _ => ⟨?_, ?_⟩
  · rintro ⟨c, ⟨e, he, ha, hc⟩, hb⟩
    exact ⟨e, he, ha, c, hc, hb⟩
  · rintro ⟨e, he, ha, c, hc, hb⟩
    exact ⟨c, ⟨e, he, ha, hc⟩, hb⟩

theorem formatOfSize_eq_none {t : Size} : formatOfSize t = none ↔ t = .reserved := by
  cases t <;> simp [formatOfSize]

theorem isUndefined_iff (i : Instr) (c : Config) :
    isUndefined i c = true ↔ featuresPresent c (constantsOf i).merging = false ∨ i.size = .reserved := by
  simp [isUndefined]

/-- An UNDEFINED instruction raises UndefinedInstruction with its word (R106, R114). -/
theorem exec_of_undefined {i : Instr} {s : State} (h : isUndefined i s.cfg = true) :
    exec i s = .next { s with mark := some (.undefinedInstruction (encode i)) } := by
  rw [exec_eq_frint]
  rcases (isUndefined_iff i s.cfg).mp h with h | h
  · simp [frint, h, raise]
  · simp [frint, h, formatOfSize, raise]

/-- An instruction that is not UNDEFINED raises the trap `CheckSVEEnabled()` reports (R108, R114). -/
theorem exec_of_accessTrap {i : Instr} {s : State} {k : AccessTrap} (h : isUndefined i s.cfg = false)
    (hk : checkSveEnabled s = some k) : exec i s = .next { s with mark := some (.accessTrap k) } := by
  have hu : ¬ (featuresPresent s.cfg (constantsOf i).merging = false ∨ i.size = .reserved) := by
    rw [← isUndefined_iff, h]
    decide
  rw [not_or] at hu
  obtain ⟨f, hf⟩ := Option.ne_none_iff_exists'.mp (fun hn => hu.2 (formatOfSize_eq_none.mp hn))
  rw [exec_eq_frint]
  simp [frint, hu.1, hf, hk, raise]

/-- An instruction that reaches its Operation: refused where a trap is taken, else completed or refused at the top of
the address space (R71). -/
theorem exec_of_reaches {i : Instr} {s : State} {f : Format} (h : Reaches s i f) :
    exec i s =
      if TrapTaken s i f then .refused (.trappedFpException (operationOf i f s).2)
      else if s.pc.toNat + 4 < 2 ^ 64 then .next (completed i f s) else .refused .pcWrap := by
  obtain ⟨h1, h2, h3⟩ := h
  rw [exec_eq_frint]
  simp only [frint, h1, h2, h3, if_true, frintExecute]
  by_cases ht : TrapTaken s i f
  · have := (fpTrapTaken_iff i f s).mpr ht
    unfold operationOf at this ⊢
    rw [if_pos this, if_pos ht]
  · have := mt (fpTrapTaken_iff i f s).mp ht
    unfold operationOf at this
    rw [if_neg this, if_neg ht]
    rfl

theorem exec_of_canComplete {i : Instr} {s : State} {f : Format} (h : CanComplete s i f) :
    exec i s = .next (completed i f s) := by
  rw [exec_of_reaches h.1, if_neg h.2.1, if_pos h.2.2]

/-- The five ways an instruction can end. -/
theorem exec_cases (i : Instr) (s : State) :
    (isUndefined i s.cfg = true ∧
      exec i s = .next { s with mark := some (.undefinedInstruction (encode i)) }) ∨
    (∃ k, isUndefined i s.cfg = false ∧ checkSveEnabled s = some k ∧
      exec i s = .next { s with mark := some (.accessTrap k) }) ∨
    (∃ f, Reaches s i f ∧ TrapTaken s i f ∧
      exec i s = .refused (.trappedFpException (operationOf i f s).2)) ∨
    (∃ f, Reaches s i f ∧ ¬ TrapTaken s i f ∧ ¬ s.pc.toNat + 4 < 2 ^ 64 ∧ exec i s = .refused .pcWrap) ∨
    (∃ f, CanComplete s i f ∧ exec i s = .next (completed i f s)) := by
  by_cases hu : isUndefined i s.cfg = true
  · exact .inl ⟨hu, exec_of_undefined hu⟩
  · cases hk : checkSveEnabled s with
    | some k => exact .inr (.inl ⟨k, by simpa using hu, rfl, exec_of_accessTrap (by simpa using hu) hk⟩)
    | none =>
      have hn := mt (isUndefined_iff i s.cfg).mpr hu
      rw [not_or, Bool.not_eq_false] at hn
      obtain ⟨f, hf⟩ := Option.ne_none_iff_exists'.mp (fun h => hn.2 (formatOfSize_eq_none.mp h))
      have hr : Reaches s i f := ⟨hn.1, hf, hk⟩
      have he := exec_of_reaches hr
      by_cases ht : TrapTaken s i f
      · exact .inr (.inr (.inl ⟨f, hr, ht, by rw [he, if_pos ht]⟩))
      · rw [if_neg ht] at he
        by_cases hp : s.pc.toNat + 4 < 2 ^ 64
        · exact .inr (.inr (.inr (.inr ⟨f, ⟨hr, ht, hp⟩, by rw [he, if_pos hp]⟩)))
        · exact .inr (.inr (.inr (.inl ⟨f, hr, ht, hp, by rw [he, if_neg hp]⟩)))

/-- What an instruction leaves where it answers a next state: an exception raised, or its completed state. -/
theorem exec_next_cases {i : Instr} {s t : State} (h : exec i s = .next t) :
    (∃ e, t = { s with mark := some e }) ∨ (∃ f, CanComplete s i f ∧ t = completed i f s) := by
  rcases exec_cases i s with ⟨_, he⟩ | ⟨k, _, _, he⟩ | ⟨f, _, _, he⟩ | ⟨f, _, _, _, he⟩ | ⟨f, hc, he⟩ <;>
    rw [he] at h <;> cases h
  · exact .inl ⟨_, rfl⟩
  · exact .inl ⟨_, rfl⟩
  · exact .inr ⟨f, hc, rfl⟩

/-- Two states that agree on the features, `CheckSVEEnabled()`, the traps and the Operation give the same outcome, up to
the fields in which they differ. -/
theorem exec_map (i : Instr) (s s' : State) (g : State → State)
    (hfeat : ∀ m, featuresPresent s'.cfg m = featuresPresent s.cfg m)
    (hk : checkSveEnabled s' = checkSveEnabled s)
    (htrap : ∀ l, fpTrapTaken s'.cfg s'.fpcr l = fpTrapTaken s.cfg s.fpcr l)
    (hop : ∀ f, formatOfSize i.size = some f → operationOf i f s' = operationOf i f s)
    (hm : ∀ m, ({ s' with mark := some m } : State) = g { s with mark := some m })
    (hpc : s'.pc.toNat + 4 < 2 ^ 64 ↔ s.pc.toNat + 4 < 2 ^ 64)
    (hcomp : ∀ f, operationOf i f s' = operationOf i f s → completed i f s' = g (completed i f s)) :
    exec i s' = mapNext g (exec i s) := by
  have hU : isUndefined i s'.cfg = isUndefined i s.cfg := by rw [isUndefined, isUndefined, hfeat]
  have hR : ∀ f, Reaches s i f → Reaches s' i f := fun f h => ⟨(hfeat _).trans h.1, h.2.1, hk.trans h.2.2⟩
  have hT : ∀ f, formatOfSize i.size = some f → (TrapTaken s' i f ↔ TrapTaken s i f) := by
    intro f h; rw [← fpTrapTaken_iff, ← fpTrapTaken_iff, hop f h, htrap]
  rcases exec_cases i s with ⟨hu, he⟩ | ⟨k, hu, hs, he⟩ | ⟨f, hr, ht, he⟩ | ⟨f, hr, ht, hp, he⟩ | ⟨f, hcc, he⟩ <;> rw [he]
  · rw [exec_of_undefined (hU.trans hu)]; simp only [mapNext, hm]
  · rw [exec_of_accessTrap (hU.trans hu) (hk.trans hs)]; simp only [mapNext, hm]
  · rw [exec_of_reaches (hR f hr), if_pos ((hT f hr.2.1).mpr ht), hop f hr.2.1]; rfl
  · rw [exec_of_reaches (hR f hr), if_neg (mt (hT f hr.2.1).mp ht), if_neg (mt hpc.mp hp)]; rfl
  · rw [exec_of_reaches (hR f hcc.1), if_neg (mt (hT f hcc.1.2.1).mp hcc.2.1), if_pos (hpc.mpr hcc.2.2)]
    simp only [mapNext, hcomp f (hop f hcc.1.2.1)]

/-- Two classes with the same constants in a state act alike where neither is UNDEFINED. -/
theorem frint_congr (k k' : ClassConstants) (w : Word) (t : Size) (d : Fin 32) (g : Fin 8) (n : Fin 32) (s : State)
    (hu : (featuresPresent s.cfg k.merging && t != .reserved) = true) (he : k.exact = k'.exact)
    (hm : k.merging = k'.merging)
    (hr : k.rounding.resolve s.cfg s.fpcr = k'.rounding.resolve s.cfg s.fpcr) (w' : Word) :
    frint k w t d g n s = frint k' w' t d g n s := by
  simp only [Bool.and_eq_true, bne_iff_ne] at hu
  unfold frint
  rw [← hm, if_pos hu.1, if_pos hu.1]
  cases hf : formatOfSize t with
  | none => exact absurd (formatOfSize_eq_none.mp hf) hu.2
  | some f =>
    simp only [frintExecute, frintOperation, he, hm, hr]
    rfl

/-! ### The completed state -/

@[simp] theorem completed_cfg (i : Instr) (f : Format) (s : State) : (completed i f s).cfg = s.cfg := rfl
@[simp] theorem completed_text (i : Instr) (f : Format) (s : State) : (completed i f s).text = s.text := rfl
@[simp] theorem completed_p (i : Instr) (f : Format) (s : State) : (completed i f s).p = s.p := rfl
@[simp] theorem completed_ffr (i : Instr) (f : Format) (s : State) : (completed i f s).ffr = s.ffr := rfl
@[simp] theorem completed_fpcr (i : Instr) (f : Format) (s : State) : (completed i f s).fpcr = s.fpcr := rfl
@[simp] theorem completed_fpsr (i : Instr) (f : Format) (s : State) :
    (completed i f s).fpsr = s.fpsr ||| fpFlags (operationOf i f s).2 := rfl
@[simp] theorem completed_pc (i : Instr) (f : Format) (s : State) : (completed i f s).pc = s.pc + 4#64 := rfl
@[simp] theorem completed_mark (i : Instr) (f : Format) (s : State) : (completed i f s).mark = s.mark := rfl
@[simp] theorem completed_nzcv (i : Instr) (f : Format) (s : State) : (completed i f s).nzcv = s.nzcv := rfl
@[simp] theorem completed_x (i : Instr) (f : Format) (s : State) : (completed i f s).x = s.x := rfl
@[simp] theorem completed_sp (i : Instr) (f : Format) (s : State) : (completed i f s).sp = s.sp := rfl

/-- The destination register of a completed instruction holds the Operation's result. -/
theorem completed_z_dest (i : Instr) (f : Format) (s : State) :
    (completed i f s).z[i.zd.val] = (operationOf i f s).1 := by
  show (s.z.set i.zd.val (lowBits s.cfg.vl (operationOf i f s).1))[i.zd.val] = _
  rw [Vector.getElem_set_self, lowBits_operationOf]

/-- Every other vector register of a completed instruction is as before. -/
theorem completed_z_other (i : Instr) (f : Format) (s : State) (n : Fin 32) (h : n ≠ i.zd) :
    (completed i f s).z[n.val] = s.z[n.val] := by
  show (s.z.set i.zd.val _)[n.val] = _
  exact Vector.getElem_set_ne _ _ (fun hv => h (Fin.ext hv.symm))

end Sys2Proof.Machine
end

