-- ==== Sys2Proof/Laws/Memory.lean ====
section
/-! SUPPORT. The laws of the program text: a read after a write, the canonical form is kept by every operation, and the
word placed at `pc` is the word fetched. -/

namespace Sys2Proof.Machine

theorem Memory.read_insert (a : Nat) (b : Byte) (m : Memory) (c : Nat)
    (h : m.Pairwise (fun x y => x.1 < y.1)) :
    Memory.read (Memory.insert a b m) c = if c = a then some b else Memory.read m c := by
  induction m with
  | nil => rfl
  | cons d rest ih =>
    obtain ⟨hd, hr⟩ := List.pairwise_cons.mp h
    unfold Memory.insert
    split
    · simp [Memory.read]
    · split
      · rename_i h1 h2; subst h2; simp only [Memory.read]; split <;> simp_all
      · simp only [Memory.read, ih hr]
        split <;> split <;> simp_all

theorem Memory.mem_insert (a : Nat) (b : Byte) (m : Memory) (c : Host.Cell) (h : c ∈ Memory.insert a b m) :
    c = (a, b) ∨ c ∈ m := by
  induction m with
  | nil => simpa [Memory.insert] using h
  | cons d rest ih =>
    unfold Memory.insert at h
    split at h
    · simpa using h
    · split at h
      · rcases List.mem_cons.mp h with h | h <;> simp [h]
      · rcases List.mem_cons.mp h with h | h
        · simp [h]
        · rcases ih h with h | h <;> simp [h]

theorem Memory.insert_pairwise (a : Nat) (b : Byte) (m : Memory) (h : m.Pairwise (fun x y => x.1 < y.1)) :
    (Memory.insert a b m).Pairwise (fun x y => x.1 < y.1) := by
  induction m with
  | nil => simp [Memory.insert]
  | cons d rest ih =>
    obtain ⟨hd, hr⟩ := List.pairwise_cons.mp h
    unfold Memory.insert
    split
    · rename_i h1
      refine List.pairwise_cons.mpr ⟨fun c hc => ?_, h⟩
      rcases List.mem_cons.mp hc with rfl | hc
      · exact h1
      · exact Nat.lt_trans h1 (hd c hc)
    · split
      · rename_i h1 h2
        exact List.pairwise_cons.mpr ⟨fun c hc => h2 ▸ hd c hc, hr⟩
      · rename_i h1 h2
        refine List.pairwise_cons.mpr ⟨fun c hc => ?_, ih hr⟩
        rcases Memory.mem_insert a b rest c hc with rfl | hc
        · show d.1 < a; omega
        · exact hd c hc

/-- A write keeps the canonical form. -/
theorem Memory.wf_write {m : Memory} (a : Nat) (b : Byte) (h : Memory.wf m) : Memory.wf (Memory.write m a b) := by
  unfold Memory.write
  split
  · rename_i ha
    refine ⟨Memory.insert_pairwise a b m h.1, fun c hc => ?_⟩
    rcases Memory.mem_insert a b m c hc with rfl | hc
    · exact ha
    · exact h.2 c hc
  · exact h

/-- Placing bytes keeps the canonical form. -/
theorem Memory.wf_writeBytes {m : Memory} (a : Nat) (bs : List Byte) (h : Memory.wf m) :
    Memory.wf (Memory.writeBytes m a bs) := by
  induction bs generalizing m a with
  | nil => exact h
  | cons b rest ih => exact ih (a + 1) (Memory.wf_write a b h)

/-- A read after a write: the byte written at the address, every other address as before. -/
theorem Memory.read_write {m : Memory} (h : Memory.wf m) (a c : Nat) (b : Byte) (ha : a < 2 ^ 64) :
    Memory.read (Memory.write m a b) c = if c = a then some b else Memory.read m c := by
  rw [Memory.write, if_pos ha, Memory.read_insert a b m c h.1]

/-- A read after placing bytes: the byte at its place in the list, every other address as before. -/
theorem Memory.read_writeBytes {m : Memory} (h : Memory.wf m) (a c : Nat) (bs : List Byte)
    (hb : a + bs.length ≤ 2 ^ 64) :
    Memory.read (Memory.writeBytes m a bs) c =
      if a ≤ c ∧ c < a + bs.length then bs[c - a]? else Memory.read m c := by
  induction bs generalizing m a with
  | nil => rw [if_neg (by simp only [List.length_nil]; omega)]; rfl
  | cons b rest ih =>
    simp only [List.length_cons] at hb ⊢
    rw [Memory.writeBytes, ih (Memory.wf_write a b h) (a + 1) (by omega), Memory.read_write h a c b (by omega)]
    rcases Nat.lt_trichotomy c a with hc | rfl | hc
    · rw [if_neg (by omega), if_neg (by omega), if_neg (by omega)]
    · rw [if_neg (by omega), if_pos rfl, if_pos (by omega)]; simp
    · by_cases h1 : c < a + 1 + rest.length
      · rw [if_pos (by omega), if_pos (by omega)]
        obtain ⟨k, rfl⟩ : ∃ k, c = a + 1 + k := ⟨c - (a + 1), by omega⟩
        simp [show a + 1 + k - a = k + 1 from by omega]
      · rw [if_neg (by omega), if_neg (by omega), if_neg (by omega)]

/-- The bytes of a placed word are read back together. -/
theorem Memory.wordBytes_writeBytes {m : Memory} (h : Memory.wf m) (a : Nat) (w : Word) (ha : a + 4 ≤ 2 ^ 64) :
    Memory.wordBytes (Memory.writeBytes m a (bytesOfWord w)) a = some (bytesOfWord w) := by
  have hl : (bytesOfWord w).length = 4 := rfl
  have hr := fun c => Memory.read_writeBytes h a c (bytesOfWord w) (by rw [hl]; omega)
  unfold Memory.wordBytes
  rw [hr a, hr (a + 1), hr (a + 2), hr (a + 3)]
  simp [bytesOfWord]

/-- A launch places its program in canonical form. -/
theorem Memory.wf_start (l : Launch) (s : State) : Memory.wf (l.start s).text :=
  Memory.wf_writeBytes _ _ ⟨List.Pairwise.nil, fun _ h => absurd h List.not_mem_nil⟩

/-- Placing a word at `pc` keeps the canonical form. -/
theorem Memory.wf_placeAtPc {s : State} (w : Word) (h : Memory.wf s.text) : Memory.wf (placeAtPc s w).text :=
  Memory.wf_writeBytes _ _ h

theorem wordOfBytes_bytesOfWord (w : Word) :
    wordOfBytes (w.extractLsb' 0 8) (w.extractLsb' 8 8) (w.extractLsb' 16 8) (w.extractLsb' 24 8) = w := by
  apply BitVec.eq_of_getLsbD_eq
  intro k hk
  simp only [wordOfBytes, BitVec.getLsbD_or, BitVec.getLsbD_shiftLeft, BitVec.getLsbD_setWidth,
    BitVec.getLsbD_extractLsb']
  have : k < 8 ∨ 8 ≤ k ∧ k < 16 ∨ 16 ≤ k ∧ k < 24 ∨ 24 ≤ k := by omega
  rcases this with h | h | h | h
  · simp [h, hk, show k < 16 from by omega, show k < 24 from by omega]
  · simp [h, show ¬ k < 8 from by omega, show k < 24 from by omega, show k - 8 < 8 from by omega, hk,
      show k - 8 < 32 from by omega, show 8 + (k - 8) = k from by omega]
  · simp [h, show ¬ k < 8 from by omega, show ¬ k < 16 from by omega, show k - 16 < 8 from by omega, hk,
      show ¬ k - 8 < 8 from by omega, show k - 16 < 32 from by omega, show 16 + (k - 16) = k from by omega]
  · simp [show ¬ k < 8 from by omega, show ¬ k < 16 from by omega, show ¬ k < 24 from by omega, hk,
      show k - 24 < 8 from by omega, show ¬ k - 8 < 8 from by omega, show ¬ k - 16 < 8 from by omega,
      show k - 24 < 32 from by omega, show 24 + (k - 24) = k from by omega]

/-- Decoding the bytes of a word is decoding the word. -/
theorem decode_bytesOfWord (w : Word) :
    decode (bytesOfWord w) = match decodeWord w with
      | some i => .ok (i, [])
      | none => .error (.notFrintEncoding w) := by
  cases h : decodeWord w <;> simp only [bytesOfWord, decode, wordOfBytes_bytesOfWord, h]

/-- What a fetch gives: one of the three reasons for no step, or the four bytes at an aligned, unmarked `pc`. -/
theorem fetch_cases (s : State) :
    (∃ e, s.mark = some e ∧ fetch s = .error (.stoppedByMark e)) ∨
    (s.mark = none ∧ s.pc.toNat % 4 ≠ 0 ∧ fetch s = .error .stuckPcMisaligned) ∨
    (s.mark = none ∧ s.pc.toNat % 4 = 0 ∧ Memory.wordBytes s.text s.pc.toNat = none ∧
      fetch s = .error .stuckNoWord) ∨
    (∃ bytes, s.mark = none ∧ s.pc.toNat % 4 = 0 ∧ Memory.wordBytes s.text s.pc.toNat = some bytes ∧
      fetch s = .ok bytes) := by
  unfold fetch
  cases hm : s.mark with
  | some e => exact .inl ⟨e, rfl, rfl⟩
  | none =>
    by_cases hp : s.pc.toNat % 4 = 0
    · cases hw : Memory.wordBytes s.text s.pc.toNat with
      | none => exact .inr (.inr (.inl ⟨rfl, hp, rfl, by simp [hp]⟩))
      | some b => exact .inr (.inr (.inr ⟨b, rfl, hp, rfl, by simp [hp]⟩))
    · exact .inr (.inl ⟨rfl, hp, by simp [hp]⟩)

end Sys2Proof.Machine
end

