-- ==== Sys2Proof/Laws/Numerics.lean ====
section
/-! SUPPORT. Laws of the numerics: an element is its three fields, the exact value of an encoded integer is that integer,
and rounding is bounded by the neighbouring integers. -/

namespace Sys2Proof.Machine

/-! ### Fields -/

theorem expField_eq (f : Format) (op : BitVec f.width) :
    expField f op = op.toNat / 2 ^ f.fracBits % 2 ^ f.expBits := by
  simp only [expField, BitVec.extractLsb'_toNat, Nat.shiftRight_eq_div_pow]

theorem fracField_eq (f : Format) (op : BitVec f.width) : fracField f op = op.toNat % 2 ^ f.fracBits := by
  simp only [fracField, BitVec.extractLsb'_toNat, Nat.shiftRight_eq_div_pow, Nat.pow_zero, Nat.div_one]

theorem expField_lt (f : Format) (op : BitVec f.width) : expField f op < 2 ^ f.expBits := BitVec.isLt _

theorem fracField_lt (f : Format) (op : BitVec f.width) : fracField f op < 2 ^ f.fracBits := BitVec.isLt _

theorem toNat_pack (f : Format) (sign : Bool) (e fr : Nat) (he : e < 2 ^ f.expBits) (hf : fr < 2 ^ f.fracBits) :
    (pack f sign e fr).toNat = (if sign then 2 ^ (f.width - 1) else 0) + e * 2 ^ f.fracBits + fr := by
  rw [pack, BitVec.toNat_ofNat]
  apply Nat.mod_eq_of_lt
  cases f <;> cases sign <;> simp only [Format.width, Format.expBits, Format.fracBits, if_true, if_false,
    Bool.false_eq_true] at * <;> omega

/-- The exponent field of a packed element. -/
theorem expField_pack (f : Format) (sign : Bool) (e fr : Nat) (he : e < 2 ^ f.expBits) (hf : fr < 2 ^ f.fracBits) :
    expField f (pack f sign e fr) = e := by
  rw [expField_eq, toNat_pack f sign e fr he hf]
  cases f <;> cases sign <;> simp only [Format.width, Format.expBits, Format.fracBits, if_true, if_false,
    Bool.false_eq_true] at * <;> omega

/-- The fraction field of a packed element. -/
theorem fracField_pack (f : Format) (sign : Bool) (e fr : Nat) (he : e < 2 ^ f.expBits) (hf : fr < 2 ^ f.fracBits) :
    fracField f (pack f sign e fr) = fr := by
  rw [fracField_eq, toNat_pack f sign e fr he hf]
  cases f <;> cases sign <;> simp only [Format.width, Format.expBits, Format.fracBits, if_true, if_false,
    Bool.false_eq_true] at * <;> omega

/-- The sign bit of a packed element. -/
theorem msb_pack (f : Format) (sign : Bool) (e fr : Nat) (he : e < 2 ^ f.expBits) (hf : fr < 2 ^ f.fracBits) :
    (pack f sign e fr).msb = sign := by
  rw [BitVec.msb_eq_decide, toNat_pack f sign e fr he hf]
  cases f <;> cases sign <;> simp only [Format.width, Format.expBits, Format.fracBits, if_true, if_false,
    Bool.false_eq_true, decide_eq_true_eq, decide_eq_false_iff_not] at * <;> omega

/-- An element is its sign, exponent and fraction packed (R95). -/
theorem pack_fields (f : Format) (op : BitVec f.width) : pack f op.msb (expField f op) (fracField f op) = op := by
  apply BitVec.eq_of_toNat_eq
  rw [toNat_pack f _ _ _ (expField_lt f op) (fracField_lt f op), expField_eq, fracField_eq, BitVec.msb_eq_decide]
  have := op.isLt
  cases f <;> simp only [Format.width, Format.expBits, Format.fracBits, decide_eq_true_eq] at * <;> split <;> omega

/-- Two elements with the same fields are the same element. -/
theorem eq_of_fields (f : Format) {a b : BitVec f.width} (hs : a.msb = b.msb) (he : expField f a = expField f b)
    (hf : fracField f a = fracField f b) : a = b := by
  rw [← pack_fields f a, ← pack_fields f b, hs, he, hf]

theorem expBits_pos (f : Format) : 1 < 2 ^ f.expBits := by cases f <;> decide

theorem isFinite_iff (f : Format) (op : BitVec f.width) : isFinite f op = true ↔ expField f op ≠ 2 ^ f.expBits - 1 := by
  simp [isFinite]

/-! ### Exact values -/

/-- The magnitude of a finite element's significand: an integer below `2^(F+1)`. -/
def significand (f : Format) (op : BitVec f.width) : Nat :=
  if expField f op = 0 then fracField f op else 2 ^ f.fracBits + fracField f op

theorem significand_lt (f : Format) (op : BitVec f.width) : significand f op < 2 ^ (f.fracBits + 1) := by
  have := fracField_lt f op
  unfold significand
  rw [Nat.pow_succ]
  split <;> omega

/-- The exponent of the last place of a finite element. -/
def lastPlace (f : Format) (op : BitVec f.width) : Int :=
  (if expField f op = 0 then 1 else (expField f op : Int)) - f.bias - f.fracBits

theorem exactValue_num (f : Format) (op : BitVec f.width) :
    (exactValue f op).num =
      (if op.msb then -(significand f op : Int) else significand f op) * 2 ^ (lastPlace f op).toNat := by
  unfold exactValue significand lastPlace
  split <;> simp

theorem exactValue_scale (f : Format) (op : BitVec f.width) :
    (exactValue f op).scale = (-(lastPlace f op)).toNat := rfl

theorem error_nonneg (v : Exact) : 0 ≤ v.error := Int.emod_nonneg _ (by positivity)

theorem error_lt (v : Exact) : v.error < 2 ^ v.scale := Int.emod_lt_of_pos _ (by positivity)

theorem num_eq (v : Exact) : v.num = v.roundDown * 2 ^ v.scale + v.error := (Int.ediv_mul_add_emod ..).symm

/-- The rounded integer is the integer below the value or, where the value is no integer, the one above. -/
theorem roundedInt_bounds (r : Rounding) (v : Exact) :
    v.roundDown ≤ roundedInt r v ∧ roundedInt r v ≤ v.roundDown + 1 ∧
      (v.error = 0 → roundedInt r v = v.roundDown) := by
  unfold roundedInt
  refine ⟨by split <;> omega, by split <;> omega, fun h => ?_⟩
  have hp : (0 : Int) < 2 ^ v.scale := by positivity
  rw [if_neg]
  cases r <;> simp [roundsUp, h] <;> omega

/-- A value that is an integer is returned by every rounding option. -/
theorem roundedInt_of_scale_zero (r : Rounding) (v : Exact) (h : v.scale = 0) : roundedInt r v = v.num := by
  have he : v.error = 0 := by simp [Exact.error, h]
  rw [(roundedInt_bounds r v).2.2 he]
  simp [Exact.roundDown, h]

end Sys2Proof.Machine
end

