-- ==== Sys2Proof/Laws/PerInstr.lean ====
section
/-! SUPPORT. Statements about every instruction, one lemma per constructor. `WordOfRow`: the word of an instruction,
masked, is the match word of the row whose fields give that instruction (spec 30_encoding.md R52, R60). -/

namespace Sys2Proof

/-- The encoded word carries the match word of the instruction's own row of the table. -/
def Laws.WordOfRow.Statement (i : Instr) : Prop :=
  ∃ r ∈ rows, encode i &&& rowMask = r.word ∧ i = r.instr i.size i.zd i.pg i.zn

theorem Laws.WordOfRow.frintxM (t : Size) (zd : Fin 32) (pg : Fin 8) (zn : Fin 32) :
    Laws.WordOfRow.Statement (.frintxM t zd pg zn) :=
  ⟨⟨0x6506A000#32, .frintxM⟩, by simp [rows], encodeFields_masked _ t zd pg zn (by decide), rfl⟩

theorem Laws.WordOfRow.frintxZ (t : Size) (zd : Fin 32) (pg : Fin 8) (zn : Fin 32) :
    Laws.WordOfRow.Statement (.frintxZ t zd pg zn) :=
  ⟨⟨0x6419C000#32, .frintxZ⟩, by simp [rows], encodeFields_masked _ t zd pg zn (by decide), rfl⟩

theorem Laws.WordOfRow.frintiM (t : Size) (zd : Fin 32) (pg : Fin 8) (zn : Fin 32) :
    Laws.WordOfRow.Statement (.frintiM t zd pg zn) :=
  ⟨⟨0x6507A000#32, .frintiM⟩, by simp [rows], encodeFields_masked _ t zd pg zn (by decide), rfl⟩

theorem Laws.WordOfRow.frintiZ (t : Size) (zd : Fin 32) (pg : Fin 8) (zn : Fin 32) :
    Laws.WordOfRow.Statement (.frintiZ t zd pg zn) :=
  ⟨⟨0x6419E000#32, .frintiZ⟩, by simp [rows], encodeFields_masked _ t zd pg zn (by decide), rfl⟩

theorem Laws.WordOfRow.frintaM (t : Size) (zd : Fin 32) (pg : Fin 8) (zn : Fin 32) :
    Laws.WordOfRow.Statement (.frintaM t zd pg zn) :=
  ⟨⟨0x6504A000#32, .frintaM⟩, by simp [rows], encodeFields_masked _ t zd pg zn (by decide), rfl⟩

theorem Laws.WordOfRow.frintaZ (t : Size) (zd : Fin 32) (pg : Fin 8) (zn : Fin 32) :
    Laws.WordOfRow.Statement (.frintaZ t zd pg zn) :=
  ⟨⟨0x64198000#32, .frintaZ⟩, by simp [rows], encodeFields_masked _ t zd pg zn (by decide), rfl⟩

theorem Laws.WordOfRow.frintnM (t : Size) (zd : Fin 32) (pg : Fin 8) (zn : Fin 32) :
    Laws.WordOfRow.Statement (.frintnM t zd pg zn) :=
  ⟨⟨0x6500A000#32, .frintnM⟩, by simp [rows], encodeFields_masked _ t zd pg zn (by decide), rfl⟩

theorem Laws.WordOfRow.frintnZ (t : Size) (zd : Fin 32) (pg : Fin 8) (zn : Fin 32) :
    Laws.WordOfRow.Statement (.frintnZ t zd pg zn) :=
  ⟨⟨0x64188000#32, .frintnZ⟩, by simp [rows], encodeFields_masked _ t zd pg zn (by decide), rfl⟩

theorem Laws.WordOfRow.frintzM (t : Size) (zd : Fin 32) (pg : Fin 8) (zn : Fin 32) :
    Laws.WordOfRow.Statement (.frintzM t zd pg zn) :=
  ⟨⟨0x6503A000#32, .frintzM⟩, by simp [rows], encodeFields_masked _ t zd pg zn (by decide), rfl⟩

theorem Laws.WordOfRow.frintzZ (t : Size) (zd : Fin 32) (pg : Fin 8) (zn : Fin 32) :
    Laws.WordOfRow.Statement (.frintzZ t zd pg zn) :=
  ⟨⟨0x6418E000#32, .frintzZ⟩, by simp [rows], encodeFields_masked _ t zd pg zn (by decide), rfl⟩

theorem Laws.WordOfRow.frintmM (t : Size) (zd : Fin 32) (pg : Fin 8) (zn : Fin 32) :
    Laws.WordOfRow.Statement (.frintmM t zd pg zn) :=
  ⟨⟨0x6502A000#32, .frintmM⟩, by simp [rows], encodeFields_masked _ t zd pg zn (by decide), rfl⟩

theorem Laws.WordOfRow.frintmZ (t : Size) (zd : Fin 32) (pg : Fin 8) (zn : Fin 32) :
    Laws.WordOfRow.Statement (.frintmZ t zd pg zn) :=
  ⟨⟨0x6418C000#32, .frintmZ⟩, by simp [rows], encodeFields_masked _ t zd pg zn (by decide), rfl⟩

theorem Laws.WordOfRow.frintpM (t : Size) (zd : Fin 32) (pg : Fin 8) (zn : Fin 32) :
    Laws.WordOfRow.Statement (.frintpM t zd pg zn) :=
  ⟨⟨0x6501A000#32, .frintpM⟩, by simp [rows], encodeFields_masked _ t zd pg zn (by decide), rfl⟩

theorem Laws.WordOfRow.frintpZ (t : Size) (zd : Fin 32) (pg : Fin 8) (zn : Fin 32) :
    Laws.WordOfRow.Statement (.frintpZ t zd pg zn) :=
  ⟨⟨0x6418A000#32, .frintpZ⟩, by simp [rows], encodeFields_masked _ t zd pg zn (by decide), rfl⟩

end Sys2Proof
end

