-- ==== Sys2Proof/Laws/Rounding.lean ====
section
/-! SUPPORT. Laws of `FPRoundInt` for its provers: its exact values as rationals, the integer encoding of R100, and what it
gives for each class of operand. -/

namespace Sys2Proof.Machine

/-- A value is its integer part and the error over `2^scale`. -/
theorem rationalValue_eq (f : Format) (op : BitVec f.width) :
    rationalValue f op = (exactValue f op).roundDown + (exactValue f op).error / 2 ^ (exactValue f op).scale := by
  unfold rationalValue
  rw [num_eq]
  push_cast
  field_simp

/-- A value without fraction bits: its exponent of the last place is not negative. -/
theorem lastPlace_pos_cases (f : Format) (op : BitVec f.width) (h : (exactValue f op).scale = 0) :
    expField f op ≠ 0 ∧ f.fracBits + f.bias ≤ expField f op ∧
      (lastPlace f op).toNat = expField f op - f.bias - f.fracBits := by
  rw [exactValue_scale] at h
  unfold lastPlace at *
  cases f <;> simp only [Format.bias, Format.fracBits] at * <;> split at h <;> omega

/-- `RoundDown` of R10 is the floor of the rational value. -/
theorem floor_rationalValue (f : Format) (op : BitVec f.width) : ⌊rationalValue f op⌋ = (exactValue f op).roundDown := by
  rw [rationalValue_eq, Int.floor_eq_iff]
  have h1 := error_nonneg (exactValue f op)
  have h2 := error_lt (exactValue f op)
  have hp : (0:ℚ) < 2 ^ (exactValue f op).scale := by positivity
  have h1' : (0:ℚ) ≤ (exactValue f op).error := by exact_mod_cast h1
  have h2' : ((exactValue f op).error : ℚ) < 2 ^ (exactValue f op).scale := by exact_mod_cast h2
  constructor
  · have := div_nonneg h1' hp.le; linarith
  · have := (div_lt_one hp).mpr h2'; linarith

/-- `error` of R98 is zero exactly where the value is an integer. -/
theorem error_eq_zero_iff (f : Format) (op : BitVec f.width) :
    (exactValue f op).error = 0 ↔ rationalValue f op = ⌊rationalValue f op⌋ := by
  rw [floor_rationalValue]
  conv_rhs => rw [rationalValue_eq]
  have hp : (0:ℚ) < 2 ^ (exactValue f op).scale := by positivity
  constructor
  · intro h; simp [h]
  · intro h
    have : ((exactValue f op).error : ℚ) / 2 ^ (exactValue f op).scale = 0 := by linarith
    rw [div_eq_zero_iff] at this
    rcases this with h | h
    · exact_mod_cast h
    · exact absurd h hp.ne'

/-- The rounding step of R98 on the exact value is rational rounding by the option (R99). -/
theorem roundsTo_roundedInt (r : Rounding) (f : Format) (op : BitVec f.width) :
    RoundsTo r (rationalValue f op) (roundedInt r (exactValue f op)) := by
  set v := exactValue f op with hv
  have hq : rationalValue f op = v.roundDown + v.error / 2 ^ v.scale := rationalValue_eq f op
  have hp : (0:ℚ) < 2 ^ v.scale := by positivity
  have hpz : (0:ℤ) < 2 ^ v.scale := by positivity
  have h1 := error_nonneg v
  have h2 := error_lt v
  set x : ℚ := v.error / 2 ^ v.scale with hx
  have h1' : (0:ℚ) ≤ x := div_nonneg (by exact_mod_cast h1) hp.le
  have h2' : x < 1 := (div_lt_one hp).mpr (by exact_mod_cast h2)
  have c1 : (2 * v.error > 2 ^ v.scale) ↔ x > 1/2 := by
    rw [hx, gt_iff_lt, gt_iff_lt, lt_div_iff₀ hp]
    constructor <;> intro h
    · have : ((2 ^ v.scale : ℤ) : ℚ) < ((2 * v.error : ℤ) : ℚ) := by exact_mod_cast h
      push_cast at this; linarith
    · have : ((2 ^ v.scale : ℤ) : ℚ) < ((2 * v.error : ℤ) : ℚ) := by push_cast; linarith
      exact_mod_cast this
  have c2 : (2 * v.error = 2 ^ v.scale) ↔ x = 1/2 := by
    rw [hx, div_eq_iff hp.ne']
    constructor <;> intro h
    · have : ((2 * v.error : ℤ) : ℚ) = ((2 ^ v.scale : ℤ) : ℚ) := by exact_mod_cast h
      push_cast at this; linarith
    · have : ((2 * v.error : ℤ) : ℚ) = ((2 ^ v.scale : ℤ) : ℚ) := by push_cast; linarith
      exact_mod_cast this
  have c3 : v.error = 0 ↔ x = 0 := by
    rw [hx, div_eq_zero_iff]
    constructor
    · intro h; left; exact_mod_cast h
    · rintro (h | h)
      · exact_mod_cast h
      · exact absurd h hp.ne'
  rw [hq]
  have hk : ∀ b, roundsUp r v = b → ((roundedInt r v : ℤ) : ℚ) = if b then (v.roundDown : ℚ) + 1 else v.roundDown := by
    intro b hb; unfold roundedInt; rw [hb]; cases b <;> simp
  have hk' : ∀ b, roundsUp r v = b → roundedInt r v = if b then v.roundDown + 1 else v.roundDown := by
    intro b hb; unfold roundedInt; rw [hb]
  cases hb : roundsUp r v <;> have hk := hk _ hb <;> have hk' := hk' _ hb <;>
    simp only [if_true, if_false, Bool.false_eq_true] at hk hk' <;>
    cases r <;>
    simp only [roundsUp, Bool.or_eq_false_iff, Bool.and_eq_false_iff, Bool.or_eq_true, Bool.and_eq_true, decide_eq_true_eq,
      decide_eq_false_iff_not, c1, c2, c3, ne_eq, Bool.false_eq_true] at hb <;>
    simp only [RoundsTo] <;> rw [hk]
  · -- tieEven down
    have hx2 : x ≤ 1/2 := not_lt.mp hb.1
    rw [show (v.roundDown : ℚ) + x - v.roundDown = x by ring, abs_of_nonneg h1']
    refine ⟨hx2, fun h => ?_⟩
    rcases hb.2 with h' | h'
    · exact absurd h h'
    · rw [hk', Int.even_iff]; omega
  · have hx2 : x ≤ 1/2 := not_lt.mp hb.1
    rw [show (v.roundDown : ℚ) + x - v.roundDown = x by ring, abs_of_nonneg h1']
    refine ⟨hx2, fun h => ?_⟩
    rcases hb.2 with h' | h'
    · exact absurd h h'
    · have : (v.roundDown : ℚ) ≤ -1 := by exact_mod_cast (show v.roundDown ≤ -1 by omega)
      rw [abs_of_neg (by linarith), abs_of_neg (by linarith)]; linarith
  · -- zero, down
    have hxn : x = 0 ∨ (0:ℚ) ≤ v.roundDown := by
      rcases hb with h | h
      · exact .inl (not_not.mp h)
      · right; exact_mod_cast not_lt.mp h
    rcases hxn with h | h
    · rw [h, add_zero]; exact ⟨le_refl _, by linarith, mul_self_nonneg _⟩
    · rw [abs_of_nonneg h, abs_of_nonneg (by linarith)]
      exact ⟨by linarith, by linarith, mul_nonneg (by linarith) h⟩
  · exact ⟨by linarith, by linarith⟩
  · rw [not_not.mp hb]; exact ⟨by linarith, by linarith⟩
  · have hx2 : 1/2 ≤ x := by rcases hb with h | h <;> linarith [h]
    rw [show (v.roundDown : ℚ) + x - (v.roundDown + 1) = -(1 - x) by ring, abs_neg, abs_of_pos (by linarith)]
    refine ⟨by linarith, fun h => ?_⟩
    rcases hb with h' | h'
    · linarith
    · rw [hk', Int.even_iff]; omega
  · have hx2 : 1/2 ≤ x := by rcases hb with h | h <;> linarith [h]
    rw [show (v.roundDown : ℚ) + x - (v.roundDown + 1) = -(1 - x) by ring, abs_neg, abs_of_pos (by linarith)]
    refine ⟨by linarith, fun h => ?_⟩
    rcases hb with h' | h'
    · linarith
    · have : (0:ℚ) ≤ v.roundDown := by exact_mod_cast h'.2
      rw [abs_of_nonneg (by linarith), abs_of_nonneg (by linarith)]; linarith
  · have h3 : (v.roundDown : ℚ) ≤ -1 := by exact_mod_cast (show v.roundDown ≤ -1 by omega)
    have h4 : 0 < x := lt_of_le_of_ne h1' (Ne.symm hb.1)
    rw [abs_of_nonpos (by linarith), abs_of_neg (by linarith)]
    refine ⟨by linarith, by linarith, mul_nonneg_of_nonpos_of_nonpos (by linarith) (by linarith)⟩
  · have h4 : 0 < x := lt_of_le_of_ne h1' (Ne.symm hb)
    exact ⟨by linarith, by linarith⟩

/-- The significand of an encoded integer has its leading bit at F (R100). -/
theorem scaled_bounds (F m : Nat) (hm : m ≠ 0) :
    let sc := if m.log2 ≤ F then m * 2 ^ (F - m.log2) else m / 2 ^ (m.log2 - F)
    2 ^ F ≤ sc ∧ sc < 2 ^ (F + 1) := by
  have h1 := Nat.log2_self_le hm
  have h2 := Nat.lt_log2_self (n := m)
  intro sc
  by_cases h : m.log2 ≤ F
  · have hs : sc = m * 2 ^ (F - m.log2) := if_pos h
    rw [hs]
    constructor
    · calc 2 ^ F = 2 ^ m.log2 * 2 ^ (F - m.log2) := by rw [← Nat.pow_add]; congr 1; omega
        _ ≤ _ := Nat.mul_le_mul_right _ h1
    · calc m * 2 ^ (F - m.log2) < 2 ^ (m.log2 + 1) * 2 ^ (F - m.log2) := Nat.mul_lt_mul_of_pos_right h2 (by positivity)
        _ = _ := by rw [← Nat.pow_add]; congr 1; omega
  · have hs : sc = m / 2 ^ (m.log2 - F) := if_neg h
    rw [hs]
    constructor
    · rw [Nat.le_div_iff_mul_le (by positivity), ← Nat.pow_add]
      refine le_trans (le_of_eq ?_) h1; congr 1; omega
    · rw [Nat.div_lt_iff_lt_mul (by positivity), ← Nat.pow_add]
      refine lt_of_lt_of_le h2 (le_of_eq ?_); congr 1; omega

/-- The encoding of an integer that fits has the exponent of R100, the sign given and the integer as its value. -/
theorem encodeInteger_spec (f : Format) (sign : Bool) (m : Nat) (hm : m ≠ 0)
    (hk : m.log2 + f.bias < 2 ^ f.expBits - 1) (hd : m.log2 ≤ f.fracBits ∨ 2 ^ (m.log2 - f.fracBits) ∣ m) :
    expField f (encodeInteger f sign m) = m.log2 + f.bias ∧ (encodeInteger f sign m).msb = sign ∧
    rationalValue f (encodeInteger f sign m) = (if sign then -(m : ℚ) else m) := by
  obtain ⟨hs1, hs2⟩ := scaled_bounds f.fracBits m hm
  set sc := if m.log2 ≤ f.fracBits then m * 2 ^ (f.fracBits - m.log2) else m / 2 ^ (m.log2 - f.fracBits) with hsc
  have hdef : encodeInteger f sign m = pack f sign (m.log2 + f.bias) (sc - 2 ^ f.fracBits) := rfl
  have he : m.log2 + f.bias < 2 ^ f.expBits := by omega
  have hf : sc - 2 ^ f.fracBits < 2 ^ f.fracBits := by rw [Nat.pow_succ] at hs2; omega
  have hx := expField_pack f sign _ _ he hf
  have hfr := fracField_pack f sign _ _ he hf
  have hm' := msb_pack f sign _ _ he hf
  rw [hdef]
  refine ⟨hx, hm', ?_⟩
  have hb : f.bias ≠ 0 := by cases f <;> decide
  have hsig : significand f (pack f sign (m.log2 + f.bias) (sc - 2 ^ f.fracBits)) = sc := by
    unfold significand; rw [hx, hfr, if_neg (by omega)]; omega
  have hl : lastPlace f (pack f sign (m.log2 + f.bias) (sc - 2 ^ f.fracBits)) = (m.log2 : Int) - f.fracBits := by
    unfold lastPlace; rw [hx, if_neg (by omega)]; push_cast; ring
  unfold rationalValue
  rw [exactValue_num, exactValue_scale, hsig, hl, hm']
  have hscm : (sc : ℚ) * 2 ^ (((m.log2 : Int) - f.fracBits).toNat) / 2 ^ ((-((m.log2 : Int) - f.fracBits)).toNat) = m := by
    by_cases h : m.log2 ≤ f.fracBits
    · rw [hsc, if_pos h]
      have e1 : ((m.log2 : Int) - f.fracBits).toNat = 0 := by omega
      have e2 : (-((m.log2 : Int) - f.fracBits)).toNat = f.fracBits - m.log2 := by omega
      rw [e1, e2]; push_cast; field_simp
    · rw [hsc, if_neg h]
      have e1 : ((m.log2 : Int) - f.fracBits).toNat = m.log2 - f.fracBits := by omega
      have e2 : (-((m.log2 : Int) - f.fracBits)).toNat = 0 := by omega
      rw [e1, e2, pow_zero, div_one]
      have := Nat.div_mul_cancel (hd.resolve_left h)
      exact_mod_cast this
  cases sign
  · simp only [Bool.false_eq_true, if_false]; push_cast; exact hscm
  · simp only [if_true]; push_cast; rw [← hscm]; ring

/-- The largest exponent field is twice the bias and one. -/
theorem bias_eq (f : Format) : 2 ^ f.expBits - 1 = 2 * f.bias + 1 := by cases f <;> decide

/-- The integer part of a value has the sign of the element. -/
theorem roundDown_sign (f : Format) (op : BitVec f.width) :
    (op.msb = false → 0 ≤ (exactValue f op).roundDown) ∧
    (op.msb = true → (exactValue f op).roundDown < 0 ∨ (exactValue f op).error = 0 ∧ (exactValue f op).roundDown = 0) := by
  have hp : (0:ℤ) < 2 ^ (exactValue f op).scale := by positivity
  constructor
  · intro h
    refine Int.ediv_nonneg ?_ hp.le
    rw [exactValue_num, h]; simp only [Bool.false_eq_true, if_false]; positivity
  · intro h
    have hn : (exactValue f op).num ≤ 0 := by
      rw [exactValue_num, h, if_pos rfl]
      exact mul_nonpos_of_nonpos_of_nonneg (by simp) (by positivity)
    rcases lt_or_eq_of_le hn with h' | h'
    · left; exact Int.ediv_neg_of_neg_of_pos h' hp
    · right; simp [Exact.error, Exact.roundDown, h']

/-- The rounded integer has the sign of the element. -/
theorem roundedInt_sign (r : Rounding) (f : Format) (op : BitVec f.width) :
    roundedInt r (exactValue f op) =
      if op.msb then -((roundedInt r (exactValue f op)).natAbs : ℤ) else (roundedInt r (exactValue f op)).natAbs := by
  obtain ⟨h1, h2, h3⟩ := roundedInt_bounds r (exactValue f op)
  obtain ⟨s1, s2⟩ := roundDown_sign f op
  cases hm : op.msb
  · simp only [Bool.false_eq_true, if_false]; have := s1 hm; omega
  · simp only [if_true]
    rcases s2 hm with h | ⟨h, h'⟩
    · omega
    · have := h3 h; omega

/-- The rounded magnitude is at most `2^F`, or the value had no fraction bits and is unchanged. -/
theorem roundedInt_natAbs (r : Rounding) (f : Format) (op : BitVec f.width) :
    let n := (roundedInt r (exactValue f op)).natAbs
    n ≤ 2 ^ f.fracBits ∨ (expField f op ≠ 0 ∧ n = significand f op * 2 ^ (expField f op - f.bias - f.fracBits) ∧
      f.bias + f.fracBits ≤ expField f op ∧ (exactValue f op).scale = 0) := by
  intro n
  by_cases hs : (exactValue f op).scale = 0
  · right
    obtain ⟨a, b, c⟩ := lastPlace_pos_cases f op hs
    refine ⟨a, ?_, by omega, hs⟩
    show (roundedInt r (exactValue f op)).natAbs = _
    rw [roundedInt_of_scale_zero r _ hs, exactValue_num, c]
    rw [Int.natAbs_mul]
    congr 1
    · split <;> simp
  · left
    obtain ⟨h1, h2, h3⟩ := roundedInt_bounds r (exactValue f op)
    have hl : (lastPlace f op).toNat = 0 := by rw [exactValue_scale] at hs; omega
    have hsg := significand_lt f op
    have hnum : (exactValue f op).num.natAbs < 2 ^ (f.fracBits + 1) := by
      rw [exactValue_num, hl]
      simp only [pow_zero, mul_one]
      split <;> simpa using hsg
    have e := num_eq (exactValue f op)
    have e1 := error_nonneg (exactValue f op)
    have e2 := error_lt (exactValue f op)
    have hp : (2:ℤ) ≤ 2 ^ (exactValue f op).scale := by
      calc (2:ℤ) = 2 ^ 1 := by norm_num
        _ ≤ _ := pow_le_pow_right₀ (by norm_num) (by omega)
    have hF : (2:ℤ) ^ (f.fracBits + 1) = 2 * 2 ^ f.fracBits := by ring
    have hnum' : |(exactValue f op).num| < 2 * 2 ^ f.fracBits := by
      rw [← hF, Int.abs_eq_natAbs]; exact_mod_cast hnum
    obtain ⟨u, v⟩ := abs_lt.mp hnum'
    set k := (exactValue f op).roundDown
    set P : ℤ := 2 ^ (exactValue f op).scale
    have hk1 : k ≤ 2 ^ f.fracBits - 1 := by
      by_contra hc
      have : (2:ℤ)^f.fracBits * 2 ≤ k * P := by
        have : (0:ℤ) < 2 ^ f.fracBits := by positivity
        exact mul_le_mul (by omega) hp (by norm_num) (by omega)
      omega
    have hk2 : -(2 ^ f.fracBits) ≤ k := by
      by_contra hc
      have : (k + 1) * P ≤ (-(2:ℤ) ^ f.fracBits) * 2 := by
        have h3 : k + 1 ≤ -(2:ℤ) ^ f.fracBits := by omega
        have h4 : (k + 1) * P ≤ -(2:ℤ) ^ f.fracBits * P := mul_le_mul_of_nonneg_right h3 (by omega)
        have h5 : -(2:ℤ) ^ f.fracBits * P ≤ -(2:ℤ) ^ f.fracBits * 2 := by
          have : (0:ℤ) < 2 ^ f.fracBits := by positivity
          nlinarith
        omega
      have : k * P + P ≤ (-(2:ℤ) ^ f.fracBits) * 2 := by linarith [add_mul k 1 P, one_mul P]
      omega
    have : |roundedInt r (exactValue f op)| ≤ 2 ^ f.fracBits := by rw [abs_le]; omega
    rw [Int.abs_eq_natAbs] at this
    exact_mod_cast this

/-- The rounded integer of a finite element fits the format: R100 never rounds and never overflows. -/
theorem roundedInt_fits (r : Rounding) (f : Format) (op : BitVec f.width) (hfin : isFinite f op = true)
    (hn : roundedInt r (exactValue f op) ≠ 0) :
    let m := (roundedInt r (exactValue f op)).natAbs
    m.log2 + f.bias < 2 ^ f.expBits - 1 ∧ (m.log2 ≤ f.fracBits ∨ 2 ^ (m.log2 - f.fracBits) ∣ m) := by
  have hm0 : (roundedInt r (exactValue f op)).natAbs ≠ 0 := Int.natAbs_ne_zero.mpr hn
  have hb := bias_eq f
  have hc := roundedInt_natAbs r f op
  intro m
  change m ≠ 0 at hm0
  change m ≤ _ ∨ _ ≠ 0 ∧ m = _ ∧ _ at hc
  generalize m = m at *
  rcases hc with h | ⟨h0, h1, h2, _⟩
  · have : m.log2 ≤ f.fracBits := by
      rcases Nat.lt_or_ge m (2 ^ f.fracBits) with hl | hl
      · exact (Nat.log2_lt hm0).mpr hl |>.le
      · rw [Nat.le_antisymm h hl, Nat.log2_two_pow]
    refine ⟨?_, .inl this⟩
    have : f.fracBits ≤ f.bias := by cases f <;> decide
    omega
  · have hsl := significand_lt f op
    have hsg : 2 ^ f.fracBits ≤ significand f op := by unfold significand; rw [if_neg h0]; omega
    have hlog : m.log2 = f.fracBits + (expField f op - f.bias - f.fracBits) := by
      rw [Nat.log2_eq_iff hm0]
      constructor
      · rw [h1, pow_add]; exact Nat.mul_le_mul_right _ hsg
      · rw [h1, show f.fracBits + (expField f op - f.bias - f.fracBits) + 1 =
            f.fracBits + 1 + (expField f op - f.bias - f.fracBits) by omega, pow_add]
        exact Nat.mul_lt_mul_of_pos_right hsl (by positivity)
    have he := expField_lt f op
    have hfe := (isFinite_iff f op).mp hfin
    refine ⟨by omega, .inr ?_⟩
    rw [hlog, h1, Nat.add_sub_cancel_left]
    exact Nat.dvd_mul_left _ _

/-- A finite element is a Zero, a Denormal or a Nonzero (R95). -/
theorem classify_finite (f : Format) (op : BitVec f.width) (h : isFinite f op = true) :
    classify f op = .zero ∨ classify f op = .denormal ∨ classify f op = .nonzero := by
  have := (isFinite_iff f op).mp h
  unfold classify
  split
  · split <;> simp
  · simp

theorem fields_of_zero (f : Format) (op : BitVec f.width) (h : classify f op = .zero) :
    expField f op = 0 ∧ fracField f op = 0 := by
  unfold classify at h
  split at h
  · split at h
    · exact ⟨by assumption, by assumption⟩
    · cases h
  · split at h
    · split at h
      · cases h
      · split at h <;> cases h
    · cases h

/-- The exact value of a Zero is 0. -/
theorem exactValue_of_zero (f : Format) (op : BitVec f.width) (h : classify f op = .zero) : (exactValue f op).num = 0 := by
  obtain ⟨h1, h2⟩ := fields_of_zero f op h
  rw [exactValue_num]; simp [significand, h1, h2]

/-- Rounding 0 gives 0 without error. -/
theorem roundedInt_of_num_zero (r : Rounding) (v : Exact) (h : v.num = 0) : roundedInt r v = 0 ∧ v.error = 0 := by
  have he : v.error = 0 := by simp [Exact.error, h]
  exact ⟨by rw [(roundedInt_bounds r v).2.2 he]; simp [Exact.roundDown, h], he⟩

/-- `FPRoundInt` on a finite operand that is not flushed (R98). -/
theorem fpRoundInt_of_finite (afp : Bool) (fpcr : Word64) (r : Rounding) (exact : Bool) (f : Format) (op : BitVec f.width)
    (h : isFinite f op = true) (hf : isFlushed afp fpcr f op = false) :
    fpRoundInt afp fpcr r exact f op =
      (if roundedInt r (exactValue f op) = 0 then signedZero f op.msb
        else encodeInteger f op.msb (roundedInt r (exactValue f op)).natAbs,
       if (exactValue f op).error ≠ 0 ∧ exact then [.inexact] else []) := by
  rcases classify_finite f op h with hc | hc | hc
  · obtain ⟨h1, h2⟩ := roundedInt_of_num_zero r _ (exactValue_of_zero f op hc)
    simp [fpRoundInt, unpackType, unpackConditions, hc, h1, h2]
  · have hfl : flushesDenormal afp fpcr f = false := by simpa [isFlushed, hc] using hf
    have hid : flushSetsInputDenorm afp fpcr f = false := by
      revert hfl; cases f <;> simp [flushesDenormal, flushSetsInputDenorm] <;> tauto
    simp [fpRoundInt, unpackType, unpackConditions, hc, hfl, hid]
  · simp [fpRoundInt, unpackType, unpackConditions, hc]

/-- `FPRoundInt` on a flushed Denormal (R96, R98). -/
theorem fpRoundInt_of_flushed (afp : Bool) (fpcr : Word64) (r : Rounding) (exact : Bool) (f : Format) (op : BitVec f.width)
    (hf : isFlushed afp fpcr f op = true) :
    fpRoundInt afp fpcr r exact f op =
      (signedZero f op.msb, if flushSetsInputDenorm afp fpcr f then [.inputDenorm] else []) := by
  simp only [isFlushed, Bool.and_eq_true, beq_iff_eq] at hf
  simp [fpRoundInt, unpackType, unpackConditions, hf.1, hf.2]

/-- The fields of a signed zero. -/
theorem signedZero_fields (f : Format) (sign : Bool) :
    expField f (signedZero f sign) = 0 ∧ fracField f (signedZero f sign) = 0 ∧ (signedZero f sign).msb = sign := by
  have h1 : 0 < 2 ^ f.expBits := by positivity
  have h2 : 0 < 2 ^ f.fracBits := by positivity
  exact ⟨expField_pack f sign 0 0 h1 h2, fracField_pack f sign 0 0 h1 h2, msb_pack f sign 0 0 h1 h2⟩

theorem classify_signedZero (f : Format) (sign : Bool) : classify f (signedZero f sign) = .zero := by
  obtain ⟨a, b, _⟩ := signedZero_fields f sign
  simp [classify, a, b]

theorem rationalValue_signedZero (f : Format) (sign : Bool) : rationalValue f (signedZero f sign) = 0 := by
  simp [rationalValue, exactValue_of_zero f _ (classify_signedZero f sign)]

theorem isFinite_signedZero (f : Format) (sign : Bool) : isFinite f (signedZero f sign) = true := by
  rw [isFinite_iff, (signedZero_fields f sign).1]; cases f <;> decide

/-- The class of an element with a NaN's fields (R95). -/
theorem classify_nan (f : Format) (op : BitVec f.width) (h1 : expField f op = 2 ^ f.expBits - 1) (h2 : fracField f op ≠ 0) :
    classify f op = if op.getLsbD (f.fracBits - 1) then .qnan else .snan := by
  have h0 : expField f op ≠ 0 := by rw [h1]; cases f <;> decide
  unfold classify; rw [if_neg h0, if_pos h1, if_neg h2]

/-- The fields of a NaN (R95). -/
theorem nan_iff (f : Format) (op : BitVec f.width) : (classify f op = .qnan ∨ classify f op = .snan) ↔
    expField f op = 2 ^ f.expBits - 1 ∧ fracField f op ≠ 0 := by
  constructor
  · intro h
    unfold classify at h
    split at h
    · split at h <;> simp at h
    · split at h
      · split at h
        · simp at h
        · exact ⟨by assumption, by assumption⟩
      · simp at h
  · rintro ⟨h1, h2⟩
    rw [classify_nan f op h1 h2]; split <;> simp

/-- `FPRoundInt` on a NaN (R98, R101). -/
theorem fpRoundInt_of_nan (afp : Bool) (fpcr : Word64) (r : Rounding) (exact : Bool) (f : Format) (op : BitVec f.width)
    (h1 : expField f op = 2 ^ f.expBits - 1) (h2 : fracField f op ≠ 0) :
    fpRoundInt afp fpcr r exact f op =
      (if fpcrDN fpcr then fpDefaultNaN afp fpcr f else op ||| BitVec.twoPow f.width (f.fracBits - 1),
       if op.getLsbD (f.fracBits - 1) then [] else [.invalidOp]) := by
  have hc := classify_nan f op h1 h2
  cases hb : op.getLsbD (f.fracBits - 1)
  · rw [hb] at hc
    simp [fpRoundInt, unpackType, hc, fpProcessNaN]
  · rw [hb] at hc
    have : op ||| BitVec.twoPow f.width (f.fracBits - 1) = op := by
      apply BitVec.eq_of_getLsbD_eq
      intro k hk
      rw [BitVec.getLsbD_or, BitVec.getLsbD_twoPow]
      by_cases hk' : f.fracBits - 1 = k
      · subst hk'; simp [hb]
      · simp [hk']
    simp [fpRoundInt, unpackType, hc, fpProcessNaN, this]

/-- The fields of the Default NaN (R101). -/
theorem defaultNaN_fields (afp : Bool) (fpcr : Word64) (f : Format) :
    (fpDefaultNaN afp fpcr f).msb = altFp afp fpcr ∧ expField f (fpDefaultNaN afp fpcr f) = 2 ^ f.expBits - 1 ∧
    fracField f (fpDefaultNaN afp fpcr f) = 2 ^ (f.fracBits - 1) := by
  have h1 : 2 ^ f.expBits - 1 < 2 ^ f.expBits := by cases f <;> decide
  have h2 : 2 ^ (f.fracBits - 1) < 2 ^ f.fracBits := by cases f <;> decide
  exact ⟨msb_pack f _ _ _ h1 h2, expField_pack f _ _ _ h1 h2, fracField_pack f _ _ _ h1 h2⟩

/-- The fields of a quieted NaN (R101). -/
theorem quiet_fields (f : Format) (op : BitVec f.width) :
    (op ||| BitVec.twoPow f.width (f.fracBits - 1)).msb = op.msb ∧
    expField f (op ||| BitVec.twoPow f.width (f.fracBits - 1)) = expField f op ∧
    (op ||| BitVec.twoPow f.width (f.fracBits - 1)).getLsbD (f.fracBits - 1) = true ∧
    fracField f (op ||| BitVec.twoPow f.width (f.fracBits - 1)) ≠ 0 := by
  have hbit : (op ||| BitVec.twoPow f.width (f.fracBits - 1)).getLsbD (f.fracBits - 1) = true := by
    rw [BitVec.getLsbD_or, BitVec.getLsbD_twoPow, Bool.or_eq_true]; right; cases f <;> decide
  refine ⟨?_, ?_, hbit, ?_⟩
  · rw [BitVec.msb_or]
    have : (BitVec.twoPow f.width (f.fracBits - 1)).msb = false := by cases f <;> decide
    simp [this]
  · unfold expField
    congr 1
    apply BitVec.eq_of_getLsbD_eq
    intro k hk
    simp only [BitVec.getLsbD_extractLsb', BitVec.getLsbD_or, BitVec.getLsbD_twoPow]
    have : ¬ f.fracBits - 1 = f.fracBits + k := by cases f <;> simp [Format.fracBits] <;> omega
    simp [this]
  · intro h
    have h' : (op ||| BitVec.twoPow f.width (f.fracBits - 1)).extractLsb' 0 f.fracBits = 0#_ :=
      BitVec.eq_of_toNat_eq (by simpa [fracField] using h)
    have := congrArg (fun x => x.getLsbD (f.fracBits - 1)) h'
    simp only [BitVec.getLsbD_extractLsb', Nat.zero_add, hbit, BitVec.getLsbD_zero] at this
    revert this; cases f <;> simp [Format.fracBits]

/-- The fields of an infinity (R95). -/
theorem infinity_iff (f : Format) (op : BitVec f.width) : classify f op = .infinity ↔
    expField f op = 2 ^ f.expBits - 1 ∧ fracField f op = 0 := by
  constructor
  · intro h
    unfold classify at h
    split at h
    · split at h <;> simp at h
    · split at h
      · split at h
        · exact ⟨by assumption, by assumption⟩
        · split at h <;> simp at h
      · simp at h
  · rintro ⟨h1, h2⟩
    have h0 : expField f op ≠ 0 := by rw [h1]; cases f <;> decide
    unfold classify; rw [if_neg h0, if_pos h1, if_pos h2]

/-- `FPRoundInt` on an infinity (R98). -/
theorem fpRoundInt_of_infinity (afp : Bool) (fpcr : Word64) (r : Rounding) (exact : Bool) (f : Format) (op : BitVec f.width)
    (h : classify f op = .infinity) : fpRoundInt afp fpcr r exact f op = (op, []) := by
  have he : signedInfinity f op.msb = op := by
    obtain ⟨h1, h2⟩ := (infinity_iff f op).mp h
    conv_rhs => rw [← pack_fields f op, h1, h2]
    rfl
  simp [fpRoundInt, unpackType, unpackConditions, h, he]

/-- A value as its significand times a power of two (R95). -/
theorem rationalValue_zpow (f : Format) (op : BitVec f.width) :
    rationalValue f op = (if op.msb then -(significand f op : ℚ) else significand f op) * (2:ℚ) ^ lastPlace f op := by
  unfold rationalValue
  rw [exactValue_num, exactValue_scale]
  rcases Int.le_total 0 (lastPlace f op) with h | h
  · have e1 : (-(lastPlace f op)).toNat = 0 := by omega
    rw [e1]
    conv_rhs => rw [← Int.toNat_of_nonneg h]
    rw [zpow_natCast]; push_cast; split <;> simp
  · have e1 : (lastPlace f op).toNat = 0 := by omega
    have e2 : lastPlace f op = -(((-(lastPlace f op)).toNat : ℕ) : ℤ) := by omega
    rw [e1]
    conv_rhs => rw [e2]
    rw [zpow_neg, zpow_natCast]; push_cast; split <;> simp [div_eq_mul_inv]

/-- Two Nonzero elements with the same sign and value are the same element. -/
theorem eq_of_value (f : Format) {a b : BitVec f.width} (ha : expField f a ≠ 0) (hb : expField f b ≠ 0)
    (hs : a.msb = b.msb) (hv : rationalValue f a = rationalValue f b) : a = b := by
  rw [rationalValue_zpow, rationalValue_zpow, hs] at hv
  have hv' : (significand f a : ℚ) * (2:ℚ) ^ lastPlace f a = significand f b * (2:ℚ) ^ lastPlace f b := by
    revert hv; split
    · intro h; linarith
    · exact id
  have key : ∀ x y : BitVec f.width, expField f x ≠ 0 → expField f y ≠ 0 →
      (significand f x : ℚ) * (2:ℚ) ^ lastPlace f x = significand f y * (2:ℚ) ^ lastPlace f y →
      expField f y ≤ expField f x := by
    intro x y hx hy h
    by_contra hlt
    push Not at hlt
    have hsx := significand_lt f x
    have hsy : 2 ^ f.fracBits ≤ significand f y := by unfold significand; rw [if_neg hy]; omega
    have hlp : lastPlace f x + 1 ≤ lastPlace f y := by unfold lastPlace; rw [if_neg hx, if_neg hy]; omega
    have h2 : (2:ℚ) ^ (lastPlace f x + 1) ≤ (2:ℚ) ^ lastPlace f y := zpow_le_zpow_right₀ (by norm_num) hlp
    rw [zpow_add₀ (by norm_num), zpow_one] at h2
    have hp : (0:ℚ) < (2:ℚ) ^ lastPlace f x := by positivity
    have hsx' : (significand f x : ℚ) < 2 ^ f.fracBits * 2 := by
      rw [← pow_succ]; exact_mod_cast hsx
    have hsy' : (2:ℚ) ^ f.fracBits ≤ significand f y := by exact_mod_cast hsy
    have h3 : (significand f x : ℚ) * 2 ^ lastPlace f x < 2 ^ f.fracBits * 2 * 2 ^ lastPlace f x :=
      mul_lt_mul_of_pos_right hsx' hp
    have h4 : (2:ℚ) ^ f.fracBits * (2 ^ lastPlace f x * 2) ≤ significand f y * 2 ^ lastPlace f y :=
      mul_le_mul hsy' h2 (by positivity) (by positivity)
    linarith
  have hexp : expField f a = expField f b := le_antisymm (key b a hb ha hv'.symm) (key a b ha hb hv')
  have hlp : lastPlace f a = lastPlace f b := by unfold lastPlace; rw [hexp]
  rw [hlp] at hv'
  have hsig : significand f a = significand f b := by
    have := mul_right_cancel₀ (by positivity) hv'
    exact_mod_cast this
  refine eq_of_fields f hs hexp ?_
  unfold significand at hsig
  rw [if_neg ha, if_neg hb] at hsig
  omega

/-- A Zero, a Denormal and a Nonzero are finite (R95). -/
theorem finite_of_class (f : Format) (op : BitVec f.width)
    (h : classify f op = .zero ∨ classify f op = .denormal ∨ classify f op = .nonzero) :
    isFinite f op = true := by
  rw [isFinite_iff]
  intro he
  by_cases h2 : fracField f op = 0
  · have := (infinity_iff f op).mpr ⟨he, h2⟩
    rw [this] at h; simp at h
  · have := (nan_iff f op).mpr ⟨he, h2⟩
    rcases this with h' | h' <;> rw [h'] at h <;> simp at h

end Sys2Proof.Machine
end

