-- ==== Sys2Proof/Laws/Step.lean ====
section
/-! SUPPORT. What a step that answers a next state did: it fetched a word, decoded it and executed the instruction. -/

namespace Sys2Proof.Machine

/-- A step with a next state ran the instruction of the word at an aligned `pc`, with the mark clear (R71). -/
theorem step_next {s t : State} (h : step s = .next t) :
    s.mark = none ∧ s.pc.toNat % 4 = 0 ∧ ∃ w i,
      Memory.wordBytes s.text s.pc.toNat = some (bytesOfWord w) ∧
      decodeWord w = some i ∧ exec i s = .next t := by
  rcases fetch_cases s with ⟨e, _, he⟩ | ⟨_, _, he⟩ | ⟨_, _, _, he⟩ | ⟨bytes, h1, h2, h3, he⟩
  · simp [step, he] at h
  · simp [step, he] at h
  · simp [step, he] at h
  · refine ⟨h1, h2, ?_⟩
    have : ∃ b0 b1 b2 b3, bytes = [b0, b1, b2, b3] := by
      unfold Memory.wordBytes at h3
      split at h3
      · cases h3; exact ⟨_, _, _, _, rfl⟩
      · cases h3
    obtain ⟨b0, b1, b2, b3, rfl⟩ := this
    have hw : [b0, b1, b2, b3] = bytesOfWord (wordOfBytes b0 b1 b2 b3) := by
      simp only [bytesOfWord, List.cons.injEq, and_true]
      refine ⟨?_, ?_, ?_, ?_⟩ <;> apply BitVec.eq_of_getLsbD_eq <;> intro k hk <;>
        simp only [wordOfBytes, BitVec.getLsbD_or, BitVec.getLsbD_shiftLeft, BitVec.getLsbD_setWidth,
          BitVec.getLsbD_extractLsb']
      · simp [hk, show k < 24 by omega, show k < 16 by omega, show k < 32 by omega]
      · simp [hk, show 8 + k < 24 by omega, show 8 + k < 16 by omega, show 8 + k < 32 by omega, show k < 32 by omega]
      · simp [hk, show 16 + k < 24 by omega, show 16 + k < 32 by omega, show k < 32 by omega, show 16 + k - 8 = k + 8 by omega,
          BitVec.getLsbD_of_ge b0 (16 + k) (by omega)]
      · simp [hk, show 24 + k < 32 by omega, show k < 32 by omega, show 24 + k - 8 = k + 16 by omega, 
          show 24 + k - 16 = k + 8 by omega, BitVec.getLsbD_of_ge b0 (24 + k) (by omega)]
    refine ⟨wordOfBytes b0 b1 b2 b3, ?_⟩
    rw [step, he] at h
    rw [hw] at h3
    rw [hw] at h
    simp only [decode_bytesOfWord] at h
    cases hd : decodeWord (wordOfBytes b0 b1 b2 b3) with
    | none => simp [hd, outcomeOfReject] at h
    | some i => exact ⟨i, h3, rfl, by simpa [hd] using h⟩

end Sys2Proof.Machine
end

