-- ==== Sys2Proof/Tests/Slice0.lean ====
section
/-! SUPPORT. Small tests: well-formedness, decoding of words written out from 30_encoding.md R50 to R52, single steps from
95_test_vectors.md section 5, and for every obligation with hypotheses a state and operands that meet them (`witness_`
followed by the obligation's name). Expected results are the spec's, not the model's. -/

namespace Sys2Proof.Machine

-- One test after the other: each evaluates in the kernel, and all at once would use a thread each.
set_option Elab.async false

/-! ### Well-formedness (R53) -/

theorem test_wellFormed_refuses_reserved_size : (Instr.frintmM .reserved 0 0 0).wellFormed = false := by decide

theorem test_wellFormed_accepts_sizes :
    (Instr.frintnM .h 31 7 31).wellFormed = true ∧ (Instr.frintnM .s 31 7 31).wellFormed = true ∧
      (Instr.frintnM .d 31 7 31).wellFormed = true := by decide

/-! ### Decoding: bits 31:24, 23:22, 21:19, 18:16, 15:13, 12:10, 9:5, 4:0 (R50, R51, R52) -/

/-- 95 section 2. -/
theorem test_decode_frintxM :
    decodeWord 0b01100101_10_000_110_101_000_00001_00000#32 = some (.frintxM .s 0 0 1) ∧
      encode (.frintxM .s 0 0 1) = 0b01100101_10_000_110_101_000_00001_00000#32 := by decide

/-- 95 section 2. -/
theorem test_decode_frintxZ :
    decodeWord 0b01100100_11_011_001_110_011_01101_10111#32 = some (.frintxZ .d 23 3 13) ∧
      encode (.frintxZ .d 23 3 13) = 0b01100100_11_011_001_110_011_01101_10111#32 := by decide

/-- 95 section 2. -/
theorem test_decode_frintiM :
    decodeWord 0b01100101_11_000_111_101_111_11111_11111#32 = some (.frintiM .d 31 7 31) ∧
      encode (.frintiM .d 31 7 31) = 0b01100101_11_000_111_101_111_11111_11111#32 := by decide

/-- 95 section 2. -/
theorem test_decode_frintiZ :
    decodeWord 0b01100100_10_011_001_111_001_00011_00010#32 = some (.frintiZ .s 2 1 3) ∧
      encode (.frintiZ .s 2 1 3) = 0b01100100_10_011_001_111_001_00011_00010#32 := by decide

/-- R50, R52. -/
theorem test_decode_frintaM :
    decodeWord 0b01100101_01_000_100_101_010_00101_00100#32 = some (.frintaM .h 4 2 5) ∧
      encode (.frintaM .h 4 2 5) = 0b01100101_01_000_100_101_010_00101_00100#32 := by decide

/-- R51, R52. -/
theorem test_decode_frintaZ :
    decodeWord 0b01100100_01_011_001_100_010_00101_00100#32 = some (.frintaZ .h 4 2 5) ∧
      encode (.frintaZ .h 4 2 5) = 0b01100100_01_011_001_100_010_00101_00100#32 := by decide

/-- 95 section 2. -/
theorem test_decode_frintnM :
    decodeWord 0b01100101_01_000_000_101_111_11111_11111#32 = some (.frintnM .h 31 7 31) ∧
      encode (.frintnM .h 31 7 31) = 0b01100101_01_000_000_101_111_11111_11111#32 := by decide

/-- 95 section 2. -/
theorem test_decode_frintnZ :
    decodeWord 0b01100100_01_011_000_100_000_00000_00000#32 = some (.frintnZ .h 0 0 0) ∧
      encode (.frintnZ .h 0 0 0) = 0b01100100_01_011_000_100_000_00000_00000#32 := by decide

/-- 95 section 2. -/
theorem test_decode_frintzM :
    decodeWord 0b01100101_01_000_011_101_000_00000_00000#32 = some (.frintzM .h 0 0 0) ∧
      encode (.frintzM .h 0 0 0) = 0b01100101_01_000_011_101_000_00000_00000#32 := by decide

/-- R51, R52. -/
theorem test_decode_frintzZ :
    decodeWord 0b01100100_10_011_000_111_100_01000_01000#32 = some (.frintzZ .s 8 4 8) ∧
      encode (.frintzZ .s 8 4 8) = 0b01100100_10_011_000_111_100_01000_01000#32 := by decide

/-- R50, R52. -/
theorem test_decode_frintmM :
    decodeWord 0b01100101_10_000_010_101_101_01011_01010#32 = some (.frintmM .s 10 5 11) ∧
      encode (.frintmM .s 10 5 11) = 0b01100101_10_000_010_101_101_01011_01010#32 := by decide

/-- R51, R52. -/
theorem test_decode_frintmZ :
    decodeWord 0b01100100_11_011_000_110_101_01011_01010#32 = some (.frintmZ .d 10 5 11) ∧
      encode (.frintmZ .d 10 5 11) = 0b01100100_11_011_000_110_101_01011_01010#32 := by decide

/-- R50, R52. -/
theorem test_decode_frintpM :
    decodeWord 0b01100101_10_000_001_101_111_11111_11111#32 = some (.frintpM .s 31 7 31) ∧
      encode (.frintpM .s 31 7 31) = 0b01100101_10_000_001_101_111_11111_11111#32 := by decide

/-- 95 section 2. -/
theorem test_decode_frintpZ :
    decodeWord 0b01100100_11_011_000_101_101_10001_01001#32 = some (.frintpZ .d 9 5 17) ∧
      encode (.frintpZ .d 9 5 17) = 0b01100100_11_011_000_101_101_10001_01001#32 := by decide

/-- `size == '00'` decodes to its row (95 section 2); the unallocated `opc == 101`, a word with one fixed bit wrong, and the
A64 NOP match no row. -/
theorem test_decode_edges :
    decodeWord 0b01100101_00_000_010_101_000_00000_00000#32 = some (.frintmM .reserved 0 0 0) ∧
      decodeWord 0b01100101_00_000_101_101_000_00000_00000#32 = none ∧
      decodeWord 0b01100101_01_000_000_100_000_00000_00000#32 = none ∧ decodeWord 0xD503201F#32 = none := by decide

/-- Program 1 of 95 section 6: the bytes 20 A0 80 65 are FRINTN Z0.S, P0/M, Z1.S. -/
theorem test_decode_bytes : decode [0x20, 0xA0, 0x80, 0x65] = .ok (.frintnM .s 0 0 1, []) := by decide

/-! ### Elements and predicates (95 section 3) -/

theorem test_elements :
    elem 0x0F0E0D0C0B0A09080706050403020100#2048 7 16 = 0x0F0E#16 ∧
      elem 0x0F0E0D0C0B0A09080706050403020100#2048 2 32 = 0x0B0A0908#32 ∧
      elem 0x0F0E0D0C0B0A09080706050403020100#2048 1 64 = 0x0F0E0D0C0B0A0908#64 := by decide +kernel

theorem test_active :
    anyActiveElement 0xAAAA#256 16 8 = false ∧ anyActiveElement 0x0010#256 64 2 = false ∧
      activeElement 0x0010#256 1 32 = true ∧ activeElement 0x0010#256 2 16 = true := by decide

/-! ### `FPRoundInt` (95 section 4) -/

/-- Half precision, 2.5 under each option, and -0.5 to a negative zero. -/
theorem test_round_half :
    fpRoundInt false 0 .tieEven true .half 0x4100#16 = (0x4000#16, [.inexact]) ∧
      fpRoundInt false 0 .tieAway false .half 0x4100#16 = (0x4200#16, []) ∧
      fpRoundInt false 0 .negInf false .half 0xBE00#16 = (0xC000#16, []) ∧
      fpRoundInt false 0 .posInf false .half 0xB800#16 = (0x8000#16, []) ∧
      fpRoundInt false 0 .zero false .half 0xC100#16 = (0xC000#16, []) := by decide +kernel

/-- A signalling NaN is quietened, a quiet NaN kept, an infinity kept (R98, R101). -/
theorem test_round_specials :
    fpRoundInt false 0 .zero true .half 0x7D00#16 = (0x7F00#16, [.invalidOp]) ∧
      fpRoundInt false 0 .zero true .single 0xFFC12345#32 = (0xFFC12345#32, []) ∧
      fpRoundInt false 0 .zero true .half 0xFC00#16 = (0xFC00#16, []) := by decide +kernel

/-- Program 4 of 95 section 6: DN, FZ and FZ16 set. -/
theorem test_round_flush :
    fpRoundInt false 0x03080000 .tieEven true .single 0x807FFFFF#32 = (0x80000000#32, [.inputDenorm]) ∧
      fpRoundInt false 0x03080000 .tieEven true .half 0x83FF#16 = (0x8000#16, []) ∧
      fpRoundInt false 0x03080000 .tieEven true .single 0x7FA00000#32 = (0x7FC00000#32, [.invalidOp]) := by
  decide +kernel

/-! ### Single steps (95 section 5) -/

/-- A state with two vector registers, one predicate register, FPCR and a word at `pc`. -/
def testState (d n : Fin 32) (g : Fin 16) (zd zn : ZVal) (p : PVal) (fpcr : Word64) : State :=
  { State.reset with
    z := (State.reset.z.set d.val zd).set n.val zn, p := State.reset.p.set g.val p, fpcr := fpcr, pc := 0x1000#64 }

/-- The destination, FPSR, `pc` and mark of a next state. -/
def testResult (d : Fin 32) : Host.Outcome State Fault Refusal → Option (ZVal × Word64 × Word64 × Option Raised)
  | .next t => some (t.z[d.val], t.fpsr, t.pc, t.mark)
  | _ => none

/-- The refusal of an outcome. -/
def testRefusal : Host.Outcome State Fault Refusal → Option Refusal
  | .refused r => some r
  | _ => none

/-- The fault of an outcome. -/
def testFault : Host.Outcome State Fault Refusal → Option Fault
  | .fault r => some r
  | _ => none

/-- 1.5, 3.0, -0.5, 2.5 in elements 3 to 0. -/
def vecS : ZVal := 0x3FC0000040400000BF00000040200000

/-- A denormal, a signalling NaN, -1.5, 1.5, -2.5, 2.5, -0.5, 0.5 in elements 7 to 0. -/
def vecH : ZVal := 0x00017D00BE003E00C1004100B8003800

/-- -2.5, 2.5. -/
def vecD : ZVal := 0xC0040000000000004004000000000000

/-- Vector 1: FRINTX Z0.S, P0/M, Z1.S. -/
theorem test_step_frintxM :
    testResult 0 (step ((testState 0 1 0 0xDEADBEEF0123456789ABCDEF7D007D01 vecS 0x1111 0).withFetchWord 32 0x6586A020)) =
      some (0x40000000404000008000000040000000, 0x10, 0x1004, none) := by decide +kernel

/-- Vector 2: FRINTX Z0.S, P0/Z, Z1.S. -/
theorem test_step_frintxZ :
    testResult 0 (step ((testState 0 1 0 0xDEADBEEF0123456789ABCDEF7D007D01 vecS 0x0101 0).withFetchWord 32 0x6499C020)) =
      some (0x00000000404000000000000040000000, 0x10, 0x1004, none) := by decide +kernel

/-- Vector 3: FRINTI Z2.S, P1/M, Z3.S. -/
theorem test_step_frintiM :
    testResult 2 (step ((testState 2 3 1 0xDEADBEEF0123456789ABCDEF7D007D01 vecS 0x1111 0x00400000).withFetchWord 32 0x6587A462)) =
      some (0x40000000404000008000000040400000, 0x00, 0x1004, none) := by decide +kernel

/-- Vector 4: FRINTI Z2.S, P1/Z, Z3.S. -/
theorem test_step_frintiZ :
    testResult 2 (step ((testState 2 3 1 0xDEADBEEF0123456789ABCDEF7D007D01 vecS 0x1010 0x00C00000).withFetchWord 32 0x6499E462)) =
      some (0x3F800000000000008000000000000000, 0x00, 0x1004, none) := by decide +kernel

/-- Vector 5: FRINTA Z4.H, P2/M, Z5.H. -/
theorem test_step_frintaM :
    testResult 4 (step ((testState 4 5 2 0xDEADBEEF0123456789ABCDEF7D007D01 vecH 0x5555 0).withFetchWord 32 0x6544A8A4)) =
      some (0x00007F00C0004000C2004200BC003C00, 0x01, 0x1004, none) := by decide +kernel

/-- Vector 6: FRINTA Z4.H, P2/Z, Z5.H. -/
theorem test_step_frintaZ :
    testResult 4 (step ((testState 4 5 2 0xDEADBEEF0123456789ABCDEF7D007D01 vecH 0x0055 0).withFetchWord 32 0x645988A4)) =
      some (0x0000000000000000C2004200BC003C00, 0x00, 0x1004, none) := by decide +kernel

/-- Vector 7: FRINTN Z6.D, P3/M, Z7.D. -/
theorem test_step_frintnM :
    testResult 6 (step ((testState 6 7 3 0xDEADBEEF0123456789ABCDEF7D007D01 vecD 0x0101 0).withFetchWord 32 0x65C0ACE6)) =
      some (0xC0000000000000004000000000000000, 0x00, 0x1004, none) := by decide +kernel

/-- Vector 8: FRINTN Z6.D, P3/Z, Z7.D. -/
theorem test_step_frintnZ :
    testResult 6 (step ((testState 6 7 3 0xDEADBEEF0123456789ABCDEF7D007D01 vecD 0x0100 0).withFetchWord 32 0x64D88CE6)) =
      some (0xC0000000000000000000000000000000, 0x00, 0x1004, none) := by decide +kernel

/-- Vector 9: FRINTZ Z8.S, P4/M, Z9.S. -/
theorem test_step_frintzM :
    testResult 8 (step ((testState 8 9 4 0x44444444333333332222222211111111 vecS 0x0011 0).withFetchWord 32 0x6583B128)) =
      some (0x44444444333333338000000040000000, 0x00, 0x1004, none) := by decide +kernel

/-- Vector 10: FRINTZ Z8.S, P4/Z, Z8.S. -/
theorem test_step_frintzZ :
    testResult 8 (step ((testState 8 8 4 vecS vecS 0x1100 0).withFetchWord 32 0x6498F108)) =
      some (0x3F800000404000000000000000000000, 0x00, 0x1004, none) := by decide +kernel

/-- Vector 11: FRINTM Z10.S, P5/M, Z11.S. -/
theorem test_step_frintmM :
    testResult 10 (step ((testState 10 11 5 0xDEADBEEF0123456789ABCDEF7D007D01 vecS 0x1111 0).withFetchWord 32 0x6582B56A)) =
      some (0x3F80000040400000BF80000040000000, 0x00, 0x1004, none) := by decide +kernel

/-- Vector 12: FRINTM Z10.D, P5/Z, Z11.D. -/
theorem test_step_frintmZ :
    testResult 10 (step ((testState 10 11 5 0xDEADBEEF0123456789ABCDEF7D007D01 vecS 0x0000 0).withFetchWord 32 0x64D8D56A)) =
      some (0x00000000000000000000000000000000, 0x00, 0x1004, none) := by decide +kernel

/-- Vector 13: FRINTP Z31.S, P7/M, Z31.S. -/
theorem test_step_frintpM :
    testResult 31 (step ((testState 31 31 7 vecS vecS 0xFFFF 0).withFetchWord 32 0x6581BFFF)) =
      some (0x40000000404000008000000040400000, 0x00, 0x1004, none) := by decide +kernel

/-- Vector 14: FRINTP Z12.H, P6/Z, Z13.H. -/
theorem test_step_frintpZ_no_active :
    testResult 12 (step ((testState 12 13 6 0xDEADBEEF0123456789ABCDEF7D007D01 vecH 0xAAAA 0).withFetchWord 32 0x6458B9AC)) =
      some (0x00000000000000000000000000000000, 0x00, 0x1004, none) := by decide +kernel

/-- Vector 15: FRINTP Z12.H, P6/Z, Z13.H. -/
theorem test_step_frintpZ :
    testResult 12 (step ((testState 12 13 6 0xDEADBEEF0123456789ABCDEF7D007D01 vecH 0x5555 0).withFetchWord 32 0x6458B9AC)) =
      some (0x3C007F00BC004000C000420080003C00, 0x01, 0x1004, none) := by decide +kernel

/-- Vector 16: FRINTM Z10.S, P5/M, Z11.S. -/
theorem test_step_frintmM_no_active :
    testResult 10 (step ((testState 10 11 5 0x44444444333333332222222211111111 vecS 0x0000 0).withFetchWord 32 0x6582B56A)) =
      some (0x44444444333333332222222211111111, 0x00, 0x1004, none) := by decide +kernel

/-- Vector 17: FRINTX Z0.S, P0/M, Z1.S. -/
theorem test_step_frintxM_toward_zero :
    testResult 0 (step ((testState 0 1 0 0xDEADBEEF0123456789ABCDEF7D007D01 vecS 0x1111 0x00C00000).withFetchWord 32 0x6586A020)) =
      some (0x3F800000404000008000000040000000, 0x10, 0x1004, none) := by decide +kernel

/-- VL = 256: FRINTA Z0.S, P0/M, Z1.S with elements 1, 3, 5, 7 active. -/
theorem test_step_vl256 :
    testResult 0 (step (State.withFetchWord
      { testState 0 1 0 0xDEADBEEFDEADBEEFDEADBEEFDEADBEEFDEADBEEFDEADBEEFDEADBEEFDEADBEEF
          0x7F8000004B000001BF0000003F000000C020000040200000BFC000003FC00000 0x10101010 0 with
        cfg := { Config.atReset with len := 1 } } 32 0x6584A020)) =
      some (0x7F800000DEADBEEFBF800000DEADBEEFC0400000DEADBEEFC0000000DEADBEEF, 0, 0x1004, none) := by decide +kernel

/-- Sticky flags: vector 1 started with FPSR = 0x08000001. -/
theorem test_step_sticky :
    testResult 0 (step (State.withFetchWord
      { testState 0 1 0 0 vecS 0x1111 0 with fpsr := 0x08000001 } 32 0x6586A020)) =
      some (0x40000000404000008000000040000000, 0x08000011, 0x1004, none) := by decide +kernel

/-- `size == '00'` is UNDEFINED, reported before the access check. -/
theorem test_step_undefined :
    testResult 0 (step (State.withFetchWord
      { testState 0 1 0 vecD vecS 0x1111 0 with cfg := { Config.atReset with sveAccess := .trap .sve } }
      32 0x6502A020)) = some (vecD, 0, 0x1000, some (.undefinedInstruction 0x6502A020)) := by decide +kernel

/-- An access trap is raised and nothing is written. -/
theorem test_step_accessTrap :
    testResult 0 (step (State.withFetchWord
      { testState 0 1 0 vecD vecS 0x1111 0 with cfg := { Config.atReset with sveAccess := .trap .sve } }
      32 0x6586A020)) = some (vecD, 0, 0x1000, some (.accessTrap .sve)) := by decide +kernel

/-- FRINTX with traps implemented and IXE set is refused; with traps not implemented it runs as vector 1. -/
theorem test_step_fpTrap :
    testRefusal (step (State.withFetchWord
      { testState 0 1 0 vecD vecS 0x1111 0x1000 with cfg := { Config.atReset with fpTraps := true } } 32 0x6586A020)) =
      some (.trappedFpException [.inexact, .inexact, .inexact]) ∧
    testResult 0 (step ((testState 0 1 0 vecD vecS 0x1111 0x1000).withFetchWord 32 0x6586A020)) =
      some (0x40000000404000008000000040000000, 0x10, 0x1004, none) := by decide +kernel

/-- A word of no row is refused by name (95 section 2), and with nothing placed there is no step (R38). -/
theorem test_step_none :
    testRefusal (step (State.reset.withFetchWord 32 0xD503201F)) = some (.notFrintEncoding 0xD503201F) ∧
      testFault (step State.reset) = some .stuckNoWord := by decide +kernel

/-! ### Witnesses -/

/-- Configuration pieces used below. -/
def cfgNoFeatures : Config :=
  { Config.atReset with featSve := false, featSme := false, featSve2p2 := false, featSme2p2 := false }

/-- Registers of the access check with everything enabled, at EL3 outside Streaming SVE mode. -/
def regsAtEl3 : AccessRegs where
  el := .el3
  sm := false
  cpacrEl1 := 0
  cptrEl2 := 0
  cptrEl3 := 0x1100
  e2h := false
  tge := false
  el2Enabled := false

/-- The reset state with another `SveAccess`. -/
def withAccess (a : SveAccess) : State := { State.reset with cfg := { Config.atReset with sveAccess := a } }

/-- The registers with every field of CPACR_EL1 enabled and EL2 not enabled, at a level and in a mode. -/
def regsAt (el : ExceptionLevel) (sm : Bool) : AccessRegs := { regsAtEl3 with el := el, sm := sm, cpacrEl1 := 0x3330000 }

/-- The same with EL2 enabled, and `CPTR_EL2` and `HCR_EL2.{E2H,TGE}` as given. -/
def regsEl2 (el : ExceptionLevel) (sm : Bool) (cptr : Word64) (e2h tge : Bool) : AccessRegs :=
  { regsAt el sm with el2Enabled := true, cptrEl2 := cptr, e2h := e2h, tge := tge }

/-- A state whose element 0 of Z1 is active, the others inactive, `Z1` holding `zn`. -/
def oneActive (zn : ZVal) (fpcr : Word64) : State := testState 0 1 0 vecD zn 0x1 fpcr

theorem witness_EncodeOfDecodedIsTheWord : decodeWord 0x6586A020#32 = some (.frintxM .s 0 0 1) := by decide

theorem witness_RegisterNumbersAreUnsignedFields :
    decodeWord 0x65C7BFFF#32 = some (.frintiM .d 31 7 31) ∧ ⟨0x6418A000#32, .frintpZ⟩ ∈ rows := by
  refine ⟨by decide, ?_⟩
  simp [rows]

/-- The three disjuncts, each alone, and a state in which none holds. -/
theorem witness_UndefinedInExactlyTwoCases :
    ((constantsOf (.frintnM .h 0 0 0)).merging = true ∧ cfgNoFeatures.featSve = false ∧
        cfgNoFeatures.featSme = false ∧ (Instr.frintnM .h 0 0 0).size ≠ .reserved) ∧
      ((constantsOf (.frintnZ .h 0 0 0)).merging = false ∧ cfgNoFeatures.featSve2p2 = false ∧
        cfgNoFeatures.featSme2p2 = false ∧ (Instr.frintnZ .h 0 0 0).size ≠ .reserved) ∧
      ((Instr.frintnM .reserved 0 0 0).size = .reserved ∧ Config.atReset.featSve = true) ∧
      isUndefined (.frintnZ .h 0 0 0) Config.atReset = false := by decide

theorem witness_AccessTrapIsRaisedAfterUndefined :
    checkSveEnabled (withAccess (.trap .fp)) = some .fp ∧
      isUndefined (.frintnM .reserved 0 0 0) (withAccess (.trap .fp)).cfg = true ∧
      isUndefined (.frintnM .s 0 0 0) (withAccess (.trap .fp)).cfg = false := by decide

/-- Each of the first five clauses at a case where its condition holds and one where it does not. -/
theorem witness_RegisterCheckReportsByMode :
    checkSveEnabled { State.reset with cfg := { Config.atReset with featSve := false, sveAccess := .registers regsAtEl3 } } =
        some (.sme 0b010#3) ∧
      checkSveEnabled (withAccess (.registers { regsAtEl3 with sm := true })) = none ∧
      checkSveEnabled (withAccess (.registers { regsAtEl3 with sm := true, cptrEl3 := 0x100 })) = some (.sme 0b000#3) ∧
      checkSveEnabled (withAccess (.registers regsAtEl3)) = none ∧
      checkSveEnabled (withAccess (.registers { regsAtEl3 with cptrEl3 := 0x1000 })) = some .sve ∧
      checkSveEnabled (withAccess (.registers { regsAtEl3 with cptrEl3 := 0x1500 })) = some .fp := by decide

/-- The EL1 rows of the last clause: 'x0' at EL0 and EL1, '01' at EL0 only, SMEN, FPEN and ZEN each alone, the first row
reported, and none in a host regime. -/
theorem witness_RegisterCheckReportsByMode_el1 :
    checkSveEnabled (withAccess (.registers (regsAt .el0 true))) = none ∧
      checkSveEnabled (withAccess (.registers { regsAt .el1 true with cpacrEl1 := 0x0330000 })) = some (.sme 0b000#3) ∧
      checkSveEnabled (withAccess (.registers { regsAt .el1 true with cpacrEl1 := 0x3230000 })) = some .fp ∧
      checkSveEnabled (withAccess (.registers { regsAt .el1 true with cpacrEl1 := 0x3300000 })) = none ∧
      checkSveEnabled (withAccess (.registers { regsAt .el0 false with cpacrEl1 := 0x0310000 })) = some .sve ∧
      checkSveEnabled (withAccess (.registers { regsAt .el1 false with cpacrEl1 := 0x0310000 })) = none ∧
      checkSveEnabled (withAccess (.registers { regsAt .el0 false with cpacrEl1 := 0x0130000 })) = some .fp ∧
      checkSveEnabled (withAccess (.registers { regsAt .el1 false with cpacrEl1 := 0 })) = some .sve ∧
      checkSveEnabled (withAccess (.registers { regsEl2 .el0 false 0x330000 true true with cpacrEl1 := 0 })) = none := by
  decide

/-- The EL2 rows of the last clause: bits 12, 10 and 8 with E2H 0, the fields with E2H 1, '01' at EL0 with TGE 1 only, and
none where EL2 is not enabled or at EL3. -/
theorem witness_RegisterCheckReportsByMode_el2 :
    checkSveEnabled (withAccess (.registers (regsEl2 .el2 true 0x1000 false false))) = some (.sme 0b000#3) ∧
      checkSveEnabled (withAccess (.registers (regsEl2 .el1 true 0x500 false false))) = some .fp ∧
      checkSveEnabled (withAccess (.registers (regsEl2 .el0 false 0x500 false false))) = some .sve ∧
      checkSveEnabled (withAccess (.registers (regsEl2 .el2 false 0x1000 false false))) = none ∧
      checkSveEnabled (withAccess (.registers (regsEl2 .el2 true 0x0330000 true false))) = some (.sme 0b000#3) ∧
      checkSveEnabled (withAccess (.registers (regsEl2 .el2 true 0x3020000 true false))) = some .fp ∧
      checkSveEnabled (withAccess (.registers (regsEl2 .el0 false 0x0310000 true true))) = some .sve ∧
      checkSveEnabled (withAccess (.registers (regsEl2 .el0 false 0x0310000 true false))) = none ∧
      checkSveEnabled (withAccess (.registers { regsAt .el1 false with cptrEl2 := 0x1500 })) = none ∧
      checkSveEnabled (withAccess (.registers (regsEl2 .el3 false 0x1500 false false))) = none := by decide

/-- A trap, the constant `Enabled`, and a free function of the state. -/
theorem witness_SveAccessIsAskedInTheState :
    featuresPresent Config.atReset true = true ∧ formatOfSize (Instr.frintxM .s 0 0 1).size = some .single ∧
      (withAccess (.trap .sve)).cfg.sveAccess = .trap .sve ∧ (oneActive vecS 0).cfg.sveAccess = .enabled ∧
      ¬ TrapTaken (oneActive vecS 0) (.frintxM .s 0 0 1) .single ∧ (oneActive vecS 0).pc.toNat + 4 < 2 ^ 64 ∧
      (withAccess (.ofState 3)).cfg.sveAccess = .ofState 3 ∧
      ¬ TrapTaken (withAccess (.ofState 3)) (.frintxM .s 0 0 1) .single ∧
      (withAccess (.ofState 3)).pc.toNat + 4 < 2 ^ 64 := by decide +kernel

/-- The intended functions, the premise of the claims about values, hold of the configuration at reset, and of any other
that says so. -/
theorem witness_intended : HasIntendedRoundInt (oneActive vecS 0).cfg ∧ HasIntendedMode (oneActive vecS 0).cfg :=
  ⟨fun _ _ _ _ _ => rfl, fun _ => rfl⟩

/-- A configuration with free functions in their place still completes. -/
theorem witness_CompletesElementByElement_free :
    CanComplete { oneActive vecS 0 with cfg := { Config.atReset with fpRoundInt := .free 0, fpRoundingMode := .free 1 } }
      (.frintxM .s 0 0 1) .single :=
  ⟨⟨rfl, rfl, rfl⟩, fun h => Bool.false_ne_true h.1, by decide +kernel⟩

theorem witness_CompletesElementByElement :
    CanComplete (oneActive vecS 0) (.frintxM .s 0 0 1) .single ∧
      CanComplete (oneActive vecS 0) (.frintnZ .s 0 0 1) .single ∧
      laneActive (oneActive vecS 0) (.frintxM .s 0 0 1) .single 0 = true ∧
      laneActive (oneActive vecS 0) (.frintxM .s 0 0 1) .single 3 = false ∧
      elementCount (oneActive vecS 0).cfg .single = 4 := by decide +kernel

theorem witness_RoundsActiveElementsToIntegral :
    CanComplete (oneActive vecS 0) (.frintxM .s 0 0 1) .single ∧
      laneActive (oneActive vecS 0) (.frintxM .s 0 0 1) .single 0 = true ∧
      isFinite .single (laneOf (oneActive vecS 0) 1 .single 0) = true ∧
      laneActive (oneActive vecS 0) (.frintxM .s 0 0 1) .single 1 = false ∧
      CanComplete (oneActive 0x7F800000 0) (.frintxZ .s 0 0 1) .single ∧
      classify .single (laneOf (oneActive 0x7F800000 0) 1 .single 0) = .infinity ∧
      CanComplete (oneActive 0x7F800001 0) (.frintxZ .s 0 0 1) .single ∧
      classify .single (laneOf (oneActive 0x7F800001 0) 1 .single 0) = .snan ∧
      CanComplete (oneActive 0x7FC00000 0) (.frintxZ .s 0 0 1) .single ∧
      classify .single (laneOf (oneActive 0x7FC00000 0) 1 .single 0) = .qnan := by decide +kernel

/-- 2.5 in element 0 is finite and active for both forms, and half an integer. -/
theorem witness_FrintnRoundsToNearestEven :
    CanComplete (oneActive vecS 0) (.frintnM .s 0 0 1) .single ∧
      CanComplete (oneActive vecS 0) (.frintnZ .s 0 0 1) .single ∧
      laneActive (oneActive vecS 0) (.frintnM .s 0 0 1) .single 0 = true ∧
      isFinite .single (laneOf (oneActive vecS 0) 1 .single 0) = true ∧
      unpackedValue false 0 .single (laneOf (oneActive vecS 0) 1 .single 0) = 5 / 2 := by decide +kernel

/-- 2.5 and -2.5 in element 0. -/
theorem witness_FrintaRoundsTiesAway :
    CanComplete (oneActive vecD 0) (.frintaM .d 0 0 1) .double ∧
      CanComplete (oneActive vecD 0) (.frintaZ .d 0 0 1) .double ∧
      laneActive (oneActive vecD 0) (.frintaM .d 0 0 1) .double 0 = true ∧
      isFinite .double (laneOf (oneActive vecD 0) 1 .double 0) = true ∧
      unpackedValue false 0 .double (laneOf (oneActive vecD 0) 1 .double 0) = 5 / 2 ∧
      CanComplete (oneActive 0xC004000000000000 0) (.frintaM .d 0 0 1) .double ∧
      unpackedValue false 0 .double (laneOf (oneActive 0xC004000000000000 0) 1 .double 0) = -5 / 2 := by
  decide +kernel

theorem witness_FrintmTakesTheFloor :
    CanComplete (oneActive vecH 0) (.frintmM .h 0 0 1) .half ∧ CanComplete (oneActive vecH 0) (.frintmZ .h 0 0 1) .half ∧
      laneActive (oneActive vecH 0) (.frintmM .h 0 0 1) .half 0 = true ∧
      isFinite .half (laneOf (oneActive vecH 0) 1 .half 0) = true := by decide +kernel

theorem witness_FrintpTakesTheCeiling :
    CanComplete (oneActive vecH 0) (.frintpM .h 0 0 1) .half ∧ CanComplete (oneActive vecH 0) (.frintpZ .h 0 0 1) .half ∧
      laneActive (oneActive vecH 0) (.frintpM .h 0 0 1) .half 0 = true ∧
      isFinite .half (laneOf (oneActive vecH 0) 1 .half 0) = true := by decide +kernel

/-- 2.5, and 0.5 with a magnitude below 1. -/
theorem witness_FrintzTruncates :
    CanComplete (oneActive vecS 0) (.frintzM .s 0 0 1) .single ∧ CanComplete (oneActive vecH 0) (.frintzZ .h 0 0 1) .half ∧
      laneActive (oneActive vecS 0) (.frintzM .s 0 0 1) .single 0 = true ∧
      isFinite .single (laneOf (oneActive vecS 0) 1 .single 0) = true ∧
      laneActive (oneActive vecH 0) (.frintzZ .h 0 0 1) .half 0 = true ∧
      isFinite .half (laneOf (oneActive vecH 0) 1 .half 0) = true ∧
      unpackedValue false 0 .half (laneOf (oneActive vecH 0) 1 .half 0) = 1 / 2 := by decide +kernel

/-- All four values of RMode. -/
theorem witness_FrintiUsesTheCurrentMode :
    CanComplete (oneActive vecS 0) (.frintiM .s 0 0 1) .single ∧ fpcrRMode (oneActive vecS 0).fpcr = 0b00#2 ∧
      CanComplete (oneActive vecS 0x400000) (.frintiM .s 0 0 1) .single ∧
      fpcrRMode (oneActive vecS 0x400000).fpcr = 0b01#2 ∧
      CanComplete (oneActive vecS 0x800000) (.frintiZ .s 0 0 1) .single ∧
      fpcrRMode (oneActive vecS 0x800000).fpcr = 0b10#2 ∧
      CanComplete (oneActive vecS 0xC00000) (.frintiZ .s 0 0 1) .single ∧
      fpcrRMode (oneActive vecS 0xC00000).fpcr = 0b11#2 ∧
      laneActive (oneActive vecS 0) (.frintiM .s 0 0 1) .single 0 = true ∧
      isFinite .single (laneOf (oneActive vecS 0) 1 .single 0) = true := by decide +kernel

theorem witness_FrintxSignalsInexact :
    CanComplete (oneActive vecS 0) (.frintxM .s 0 0 1) .single ∧
      CanComplete (oneActive vecS 0) (.frintxZ .s 0 0 1) .single ∧
      laneActive (oneActive vecS 0) (.frintxM .s 0 0 1) .single 0 = true ∧
      isFinite .single (laneOf (oneActive vecS 0) 1 .single 0) = true ∧ (oneActive vecS 0).fpsr.getLsbD 4 = false ∧
      unpackedValue false 0 .single (laneOf (oneActive vecS 0) 1 .single 0) ≠ 2 := by decide +kernel

/-- A completed FRINTN, and an UNDEFINED one. -/
theorem witness_OnlyTheDestinationFlagsPcAndMarkChange :
    (∃ t, exec (.frintnM .s 0 0 1) (oneActive vecS 0) = .next t) ∧
      ∃ t, exec (.frintnM .reserved 0 0 1) (oneActive vecS 0) = .next t :=
  ⟨⟨_, exec_of_canComplete (f := .single) (by decide +kernel)⟩, ⟨_, exec_of_undefined (by decide)⟩⟩

theorem witness_FpsrFlagsOnlyAccumulate : ∃ t, exec (.frintxM .s 0 0 1) (oneActive vecS 0) = .next t :=
  ⟨_, exec_of_canComplete (f := .single) (by decide +kernel)⟩

theorem witness_InexactFlagOnlyFromFrintx :
    isFrintx (.frintnM .s 0 0 1) = false ∧ ∃ t, exec (.frintnM .s 0 0 1) (oneActive vecS 0) = .next t :=
  ⟨rfl, _, exec_of_canComplete (f := .single) (by decide +kernel)⟩

/-- A state with the inexact trap implemented and enabled. -/
def trapState : State := { oneActive vecS 0x1000 with cfg := { Config.atReset with fpTraps := true } }

/-- Both reasons for a refusal occur. -/
theorem witness_RefusedOnlyForTrapOrPcWrap :
    testRefusal (exec (.frintxM .s 0 0 1) trapState) = some (.trappedFpException [.inexact]) ∧
      testRefusal (exec (.frintnM .s 0 0 1) { oneActive vecS 0 with pc := 0xFFFFFFFFFFFFFFFC#64 }) = some .pcWrap := by
  decide +kernel

theorem witness_EnabledTrapIsRefused :
    Reaches trapState (.frintxM .s 0 0 1) .single ∧ TrapTaken trapState (.frintxM .s 0 0 1) .single := by decide +kernel

/-- A state with FRINTN Z0.S, P0/M, Z1.S placed at `pc`. -/
def placed : State := (oneActive vecS 0).withFetchWord 32 0x6580A020

theorem witness_StepRunsTheDecodedInstruction :
    placed.mark = none ∧ placed.pc.toNat % 4 = 0 ∧
      Memory.wordBytes placed.text placed.pc.toNat = some [0x20, 0xA0, 0x80, 0x65] ∧
      decode [0x20, 0xA0, 0x80, 0x65] = .ok (.frintnM .s 0 0 1, []) := by decide +kernel

/-- Each of the four clauses: marked, misaligned, nothing placed, a word of no row. -/
theorem witness_NoStepWithoutAnInstruction :
    ({ placed with mark := some (.accessTrap .sve) } : State).mark = some (.accessTrap .sve) ∧
      ({ placed with pc := 0x1002#64 } : State).pc.toNat % 4 ≠ 0 ∧ placed.mark = none ∧
      Memory.wordBytes State.reset.text State.reset.pc.toNat = none ∧
      Memory.wordBytes (State.reset.withFetchWord 32 0x6545A000).text 0 = some (bytesOfWord 0x6545A000#32) ∧
      ∀ r ∈ rows, 0x6545A000#32 &&& rowMask ≠ r.word := by decide +kernel

theorem placed_steps : step placed = .next (completed (.frintnM .s 0 0 1) .single placed) := by
  obtain ⟨h1, h2, h3, h4⟩ := witness_StepRunsTheDecodedInstruction
  have hf : fetch placed = .ok [0x20, 0xA0, 0x80, 0x65] := by simp only [fetch, h1, h2, h3, if_true]
  simp only [step, hf, h4]
  exact exec_of_canComplete (by decide +kernel)

theorem witness_StepKeepsTheInvariant : placed.Inv ∧ ∃ t, step placed = .next t :=
  ⟨by decide +kernel, _, placed_steps⟩

theorem witness_StepMarksOrAdvances : ∃ t, step placed = .next t := ⟨_, placed_steps⟩

/-- A state whose next instruction is UNDEFINED. -/
def placedUndefined : State := (oneActive vecS 0).withFetchWord 32 0x6502A020

theorem placedUndefined_steps :
    step placedUndefined = .next { placedUndefined with mark := some (.undefinedInstruction 0x6502A020) } := by
  have hf : fetch placedUndefined = .ok [0x20, 0xA0, 0x02, 0x65] := by decide +kernel
  have hd : decode [0x20, 0xA0, 0x02, 0x65] = .ok (.frintmM .reserved 0 0 1, []) := by decide
  simp only [step, hf, hd]
  exact exec_of_undefined (by decide)

theorem witness_NoStepAfterARaise :
    ∃ t, step placedUndefined = .next t ∧ t.mark = some (.undefinedInstruction 0x6502A020) :=
  ⟨_, placedUndefined_steps, rfl⟩

theorem witness_UndefinedRecordsTheFetchedWord :
    ∃ t, step placedUndefined = .next t ∧ t.mark = some (.undefinedInstruction 0x6502A020) :=
  ⟨_, placedUndefined_steps, rfl⟩

/-- A word of a row and a word of none. -/
theorem witness_PlacedWordRunsNext :
    (oneActive vecS 0).mark = none ∧ (oneActive vecS 0).pc.toNat % 4 = 0 ∧ Memory.wf (oneActive vecS 0).text ∧
      decodeWord 0x6580A020#32 = some (.frintnM .s 0 0 1) ∧ decodeWord 0xD503201F#32 = none := by decide +kernel

theorem witness_FpRoundIntRoundsExactly :
    isFinite .half 0x4100#16 = true ∧ isFinite .single 0x00000001#32 = true ∧
      isFinite .double 0xC004000000000000#64 = true := by decide

/-- A quiet and a signalling NaN, with DN 0 and DN 1. -/
theorem witness_FpRoundIntOfNaN :
    expField .half 0x7D00#16 = 2 ^ Format.half.expBits - 1 ∧ fracField .half 0x7D00#16 ≠ 0 ∧
      (0x7D00#16).getLsbD (Format.half.fracBits - 1) = false ∧
      expField .single 0xFFC12345#32 = 2 ^ Format.single.expBits - 1 ∧ fracField .single 0xFFC12345#32 ≠ 0 ∧
      (0xFFC12345#32).getLsbD (Format.single.fracBits - 1) = true ∧
      fpcrDN 0x02000000#64 = true ∧ fpcrDN 0#64 = false := by decide

/-- An infinity; 3.0, the largest half-precision number, and -0. -/
theorem witness_IntegralOperandIsUnchanged :
    classify .half 0xFC00#16 = .infinity ∧
      (isFinite .half 0x4200#16 = true ∧ isFlushed false 0 .half 0x4200#16 = false ∧
        rationalValue .half 0x4200#16 = (3 : ℤ)) ∧
      (isFinite .half 0x7BFF#16 = true ∧ isFlushed false 0 .half 0x7BFF#16 = false ∧
        rationalValue .half 0x7BFF#16 = (65504 : ℤ)) ∧
      rationalValue .half 0x8000#16 = (0 : ℤ) := by decide +kernel

/-- Each clause: the five classes, a flushed Denormal of each kind, an integer and a fraction. -/
theorem witness_ConditionsOfOneElement :
    classify .half 0x7D00#16 = .snan ∧ classify .half 0x7E00#16 = .qnan ∧ classify .half 0x7C00#16 = .infinity ∧
      classify .half 0x8000#16 = .zero ∧ isFlushed false 0x00080000 .half 0x0001#16 = true ∧
      isFlushed false 0x01000000 .single 0x00000001#32 = true ∧ isFlushed true 0x01000003 .single 0x00000001#32 = true ∧
      (isFinite .half 0x0001#16 = true ∧ isFlushed false 0 .half 0x0001#16 = false) ∧
      rationalValue .half 0x3800#16 = 1 / 2 ∧ rationalValue .half 0x4200#16 = 3 := by decide +kernel

/-- Both disjuncts. -/
theorem witness_SignOfTheOperandIsKept :
    fpcrDN 0#64 = false ∧ fpcrDN 0x02000000#64 = true ∧ classify .half 0xBE00#16 ≠ .qnan ∧
      classify .half 0xBE00#16 ≠ .snan := by decide

/-- A condition of each of the three kinds is signalled. -/
theorem witness_ResultIsNeverDenormalOrSignalling :
    FpExc.invalidOp ∈ (fpRoundInt false 0 .zero false .half 0x7D00#16).2 ∧
      FpExc.inputDenorm ∈ (fpRoundInt false 0x01000000 .zero false .single 0x00000001#32).2 ∧
      FpExc.inexact ∈ (fpRoundInt false 0 .zero true .half 0x3800#16).2 := by decide +kernel

/-- Two different FPCR values that agree on the five fields. -/
theorem witness_FpRoundIntReadsFiveFields :
    fpcrDN 0x00C00003#64 = fpcrDN 0x00000003#64 ∧ fpcrFZ 0x00C00003#64 = fpcrFZ 0x00000003#64 ∧
      fpcrFZ16 0x00C00003#64 = fpcrFZ16 0x00000003#64 ∧ fpcrAH 0x00C00003#64 = fpcrAH 0x00000003#64 ∧
      fpcrFIZ 0x00C00003#64 = fpcrFIZ 0x00000003#64 := by decide

/-- The four values of RMode, and an instruction that ignores it, with FPCR or `FPRoundingMode` replaced. -/
theorem witness_RModeSelectsTheCurrentMode :
    fpcrRMode 0#64 = 0b00#2 ∧ fpcrRMode 0x400000#64 = 0b01#2 ∧ fpcrRMode 0x800000#64 = 0b10#2 ∧
      fpcrRMode 0xC00000#64 = 0b11#2 ∧ usesCurrentMode (.frintaM .s 0 0 1) = false ∧
      (∀ b < 64, b ≠ 22 → b ≠ 23 → (0xC00000#64).getLsbD b = State.reset.fpcr.getLsbD b) ∧
      checkSveEnabled { State.reset with fpcr := 0xC00000#64 } = checkSveEnabled State.reset ∧
      checkSveEnabled { State.reset with cfg := { State.reset.cfg with fpRoundingMode := .free 0 } } =
        checkSveEnabled State.reset := by decide

theorem witness_CurrentModeIsTheFixedInstruction :
    isUndefined (.frintiM .s 0 0 1) State.reset.cfg = false ∧ isUndefined (.frintiZ .s 0 0 1) State.reset.cfg = false ∧
      CanComplete (oneActive vecS 0x400000) (.frintxM .s 0 0 1) .single ∧
      CanComplete (oneActive vecS 0xC00000) (.frintxZ .s 0 0 1) .single := by decide +kernel

theorem witness_FrintxIsFrintiButForInexact :
    CanComplete (oneActive vecS 0) (.frintxM .s 0 0 1) .single ∧
      CanComplete (oneActive vecS 0) (.frintxZ .s 0 0 1) .single := by decide +kernel

/-- FRINTX Z1.S, P0/M, Z1.S at 0x1000. -/
theorem witness_RepeatingInPlaceChangesOnlyPc :
    (Instr.frintxM .s 1 0 1).zd = (Instr.frintxM .s 1 0 1).zn ∧
      CanComplete (oneActive vecS 0) (.frintxM .s 1 0 1) .single ∧
      (∃ t, exec (.frintxM .s 1 0 1) (oneActive vecS 0) = .next t ∧ t.pc.toNat + 4 < 2 ^ 64 ∧ checkSveEnabled t = none) := by
  refine ⟨rfl, by decide +kernel, _, exec_of_canComplete (f := .single) (by decide +kernel), ?_, rfl⟩
  rw [completed_pc]
  decide +kernel

/-- An instruction that completes, and the predicate 0xEEEF, which has the governing bits of 0x0001 for single precision. -/
theorem witness_NonGoverningBitsAreIgnored :
    formatOfSize (Instr.frintxM .s 0 0 1).size = some .single ∧
      CanComplete (oneActive vecS 0) (.frintxM .s 0 0 1) .single ∧
      checkSveEnabled { oneActive vecS 0 with p := (oneActive vecS 0).p.set 0 0xEEEF#256 } =
        checkSveEnabled (oneActive vecS 0) ∧
      ∀ e < elementCount (oneActive vecS 0).cfg .single,
        ((oneActive vecS 0).p.set 0 0xEEEF#256)[(0 : Fin 8).val].getLsbD (e * (Format.single.width / 8)) =
          (oneActive vecS 0).p[(0 : Fin 8).val].getLsbD (e * (Format.single.width / 8)) := by decide +kernel

/-- Both predications. -/
theorem witness_NoActiveElement :
    RegistersFit (testState 0 1 0 vecD vecS 0xEEEE 0) ∧
      Reaches (testState 0 1 0 vecD vecS 0xEEEE 0) (.frintxM .s 0 0 1) .single ∧
      Reaches (testState 0 1 0 vecD vecS 0xEEEE 0) (.frintxZ .s 0 0 1) .single ∧
      (testState 0 1 0 vecD vecS 0xEEEE 0).pc.toNat + 4 < 2 ^ 64 ∧
      ∀ e < elementCount Config.atReset .single,
        laneActive (testState 0 1 0 vecD vecS 0xEEEE 0) (.frintxM .s 0 0 1) .single e = false := by decide +kernel

theorem witness_EffectIsIndependentOfAddress :
    (oneActive vecS 0).pc.toNat + 4 < 2 ^ 64 ∧ (0xFFFFFFFFFFFFFFF8#64).toNat + 4 < 2 ^ 64 ∧
      checkSveEnabled { oneActive vecS 0 with pc := 0xFFFFFFFFFFFFFFF8#64, text := [] } =
        checkSveEnabled (oneActive vecS 0) := by decide +kernel

theorem witness_OtherRegistersAreNeitherReadNorWritten :
    checkSveEnabled { oneActive vecS 0 with nzcv := 5, ffr := 0xFF } = checkSveEnabled (oneActive vecS 0) := by
  decide +kernel

/-- A merging and a zeroing form, with other registers changed. -/
theorem witness_OnlyNamedRegistersAreRead :
    CanComplete (oneActive vecS 0) (.frintxM .s 0 0 1) .single ∧ CanComplete (oneActive vecS 0) (.frintxZ .s 0 0 1) .single ∧
      checkSveEnabled { oneActive vecS 0 with
        z := (oneActive vecS 0).z.set 5 vecH, p := (oneActive vecS 0).p.set 3 0xFFFF#256 } = none ∧
      ((oneActive vecS 0).z.set 5 vecH)[1] = (oneActive vecS 0).z[1] ∧
      ((oneActive vecS 0).z.set 5 vecH)[0] = (oneActive vecS 0).z[0] ∧
      ((oneActive vecS 0).p.set 3 0xFFFF#256)[0] = (oneActive vecS 0).p[0] ∧
      (oneActive vecS 0).z.set 5 vecH ≠ (oneActive vecS 0).z := by decide +kernel

end Sys2Proof.Machine
end

/-! Proofs of the scope family (spec 00_scope.md): how an instruction follows the answer of `SveAccess`. -/

namespace Sys2Proof.Machine

/-- The two premises of R56's negation, as claims write them, exclude UNDEFINED. -/
theorem isUndefined_eq_false_of_format {i : Instr} {c : Config} {f : Format}
    (hfeat : featuresPresent c (constantsOf i).merging = true) (hf : formatOfSize i.size = some f) :
    isUndefined i c = false := by
  have hsize : i.size ≠ .reserved := fun h => by
    rw [formatOfSize_eq_none.mpr h] at hf
    cases hf
  simp [isUndefined, hfeat, hsize]

/-- An instruction that can complete advances `pc` and leaves the fault mark as it was (R25, R71). -/
theorem exec_advances_of_canComplete {i : Instr} {s : State} {f : Format} (h : CanComplete s i f) :
    ∃ t, exec i s = .next t ∧ t.mark = s.mark ∧ t.pc = s.pc + 4#64 :=
  ⟨completed i f s, exec_of_canComplete h, completed_mark i f s, completed_pc i f s⟩

/-- Settles O8: each instantiation fixes the answer of `CheckSVEEnabled()` in the state, and the answer decides between
the trap and the completion. -/
theorem sveAccessIsAskedInTheState : Obligations.SveAccessIsAskedInTheState := by
  intro i f s hfeat hf
  have hdef : isUndefined i s.cfg = false := isUndefined_eq_false_of_format hfeat hf
  refine ⟨fun k hk => exec_of_accessTrap hdef (checkSveEnabled_trap hk), fun htrap hpc => ⟨fun hen => ?_, fun n hn => ?_⟩⟩
  · exact exec_advances_of_canComplete ⟨⟨hfeat, hf, checkSveEnabled_enabled hen⟩, htrap, hpc⟩
  · have hask : checkSveEnabled s = Config.freeSveAccess n s := checkSveEnabled_ofState hn
    cases hans : Config.freeSveAccess n s with
    | some k => exact exec_of_accessTrap hdef (hask.trans hans)
    | none => exact exec_advances_of_canComplete ⟨⟨hfeat, hf, hask.trans hans⟩, htrap, hpc⟩

end Sys2Proof.Machine

/-! Proofs of the state family (spec 10_state.md): the invariant, what a completed instruction does to the state and what
it leaves alone, and which registers it reads. -/

namespace Sys2Proof.Machine

/-! ### The cumulative bits a completed instruction sets -/

/-- The flag union misses a mask that no condition's cumulative bit meets. -/
theorem fpFlags_and_eq_zero {m : Word64} {l : List FpExc}
    (h : ∀ c ∈ l, BitVec.twoPow 64 c.cumulativeBit &&& m = 0#64) : fpFlags l &&& m = 0#64 := by
  induction l with
  | nil => exact BitVec.zero_and
  | cons c rest ih =>
    have hrest : fpFlags rest &&& m = 0#64 := ih fun c' hc' => h c' (List.mem_cons_of_mem c hc')
    rw [fpFlags, BitVec.and_or_distrib_right, h c List.mem_cons_self, hrest, BitVec.zero_or]

/-- No condition's cumulative bit is a RES0 bit of FPSR (R24). -/
theorem fpFlags_and_fpsrRes0 (l : List FpExc) : fpFlags l &&& fpsrRes0 = 0#64 :=
  fpFlags_and_eq_zero fun c _ => by cases c <;> decide

/-- The cumulative bits are bits 0 to 4 and 7 of FPSR (R102). -/
theorem cumulativeBit_le_or_eq (c : FpExc) : c.cumulativeBit ≤ 4 ∨ c.cumulativeBit = 7 := by
  cases c <;> decide

/-- The conditions the intended `FPRoundInt` can signal, Inexact with `exact` only (R103). -/
theorem mem_fpRoundInt_conditions {afp : Bool} {fpcr : Word64} {r : Rounding} {exact : Bool} {f : Format}
    {op : BitVec f.width} {c : FpExc} (h : c ∈ (fpRoundInt afp fpcr r exact f op).2) :
    c = .invalidOp ∨ c = .inputDenorm ∨ (c = .inexact ∧ exact = true) := by
  by_cases hfin : isFinite f op = true
  · cases hfl : isFlushed afp fpcr f op
    · rw [fpRoundInt_of_finite afp fpcr r exact f op hfin hfl] at h
      simp only [List.mem_ite_nil_right, List.mem_singleton] at h
      exact .inr (.inr ⟨h.2, h.1.2⟩)
    · rw [fpRoundInt_of_flushed afp fpcr r exact f op hfl] at h
      simp only [List.mem_ite_nil_right, List.mem_singleton] at h
      exact .inr (.inl h.2)
  · have hexp : expField f op = 2 ^ f.expBits - 1 := not_not.mp (mt (isFinite_iff f op).mpr hfin)
    by_cases hfrac : fracField f op = 0
    · rw [fpRoundInt_of_infinity afp fpcr r exact f op ((infinity_iff f op).mpr ⟨hexp, hfrac⟩)] at h
      exact absurd h List.not_mem_nil
    · rw [fpRoundInt_of_nan afp fpcr r exact f op hexp hfrac] at h
      simp only [List.mem_ite_nil_left, List.mem_singleton] at h
      exact .inl h.2

/-- The conditions an instruction's Operation can signal with the intended `FPRoundInt`. -/
theorem mem_operationOf_intended {i : Instr} {f : Format} {s : State} {c : FpExc} (hint : HasIntendedRoundInt s.cfg)
    (h : c ∈ (operationOf i f s).2) :
    c = .invalidOp ∨ c = .inputDenorm ∨ (c = .inexact ∧ (constantsOf i).exact = true) := by
  obtain ⟨e, _, _, hc⟩ := (mem_operationOf i f s c).mp h
  rw [laneRounded_intended hint] at hc
  exact mem_fpRoundInt_conditions hc

/-- Only FRINTX has the decode constant `exact` (R66). -/
theorem constantsOf_exact (i : Instr) : (constantsOf i).exact = isFrintx i := by cases i <;> rfl

/-- The FPSR bits after completion: those set before, and the cumulative bits of the active elements' conditions. -/
theorem completed_fpsr_bit_iff (i : Instr) (f : Format) (s : State) (b : Nat) :
    (completed i f s).fpsr.getLsbD b = true ↔ s.fpsr.getLsbD b = true ∨
      ∃ e < elementCount s.cfg f, laneActive s i f e = true ∧ ∃ c ∈ (laneRounded s i f e).2, c.cumulativeBit = b := by
  rw [completed_fpsr, BitVec.getLsbD_or, Bool.or_eq_true, getLsbD_fpFlags]
  refine or_congr_right ⟨?_, ?_⟩
  · rintro ⟨c, hc, hb⟩
    obtain ⟨e, he, ha, hce⟩ := (mem_operationOf i f s c).mp hc
    exact ⟨e, he, ha, c, hce, hb⟩
  · rintro ⟨e, he, ha, c, hce, hb⟩
    exact ⟨c, (mem_operationOf i f s c).mpr ⟨e, he, ha, hce⟩, hb⟩

/-- An FPSR bit that is no signalled condition's cumulative bit is as before. -/
theorem completed_fpsr_bit_of_unsignalled {i : Instr} {f : Format} {s : State} {b : Nat}
    (h : ∀ c ∈ (operationOf i f s).2, c.cumulativeBit ≠ b) :
    (completed i f s).fpsr.getLsbD b = s.fpsr.getLsbD b := by
  have hflag : (fpFlags (operationOf i f s).2).getLsbD b = false := by
    rw [Bool.eq_false_iff, ne_eq, getLsbD_fpFlags]
    rintro ⟨c, hc, hb⟩
    exact h c hc hb
  rw [completed_fpsr, BitVec.getLsbD_or, hflag, Bool.or_false]

/-! ### The invariant -/

/-- Completion keeps every register within VL or PL: only the destination is written, and with VL bits (R39). -/
theorem registersFit_completed {i : Instr} {f : Format} {s : State} (h : RegistersFit s) :
    RegistersFit (completed i f s) := by
  obtain ⟨hz, hp, hffr⟩ := h
  refine ⟨fun n => ?_, hp, hffr⟩
  by_cases hn : n = i.zd
  · subst hn
    rw [completed_z_dest]
    exact lowBits_operationOf i f s
  · rw [completed_z_other i f s n hn]
    exact hz n

/-- `pc + 4` where it does not wrap (R25). -/
theorem toNat_pc_add_four {pc : Word64} (h : pc.toNat + 4 < 2 ^ 64) : (pc + 4#64).toNat = pc.toNat + 4 := by
  rw [BitVec.toNat_add]
  exact Nat.mod_eq_of_lt h

/-- A completed instruction keeps the invariant. -/
theorem inv_completed {i : Instr} {f : Format} {s : State} (h : s.Inv) (hpc : s.pc.toNat + 4 < 2 ^ 64) :
    (completed i f s).Inv := by
  obtain ⟨hfit, hfpcr, hfpsr, halign, htext⟩ := h
  refine ⟨registersFit_completed hfit, hfpcr, ?_, ?_, htext⟩
  · show (s.fpsr ||| fpFlags (operationOf i f s).2) &&& fpsrRes0 = 0#64
    rw [BitVec.and_or_distrib_right, hfpsr, fpFlags_and_fpsrRes0, BitVec.or_zero]
  · rw [completed_pc, toNat_pc_add_four hpc, Nat.add_mod_right]
    exact halign

/-- Settles O25: a step raises, which touches none of the invariant's fields, or completes an instruction. -/
theorem stepKeepsTheInvariant : Obligations.StepKeepsTheInvariant := by
  intro s t hinv hstep
  obtain ⟨_, _, _, i, _, _, hexec⟩ := step_next hstep
  rcases exec_next_cases hexec with ⟨e, rfl⟩ | ⟨f, ⟨_, _, hpc⟩, rfl⟩
  · exact hinv
  · exact inv_completed hinv hpc

/-- Settles O26: every register is zero at reset, and zero meets each condition. -/
theorem resetMeetsTheInvariant : Obligations.ResetMeetsTheInvariant := by
  refine ⟨⟨⟨fun n => ?_, fun n => ?_, lowBits_zero _⟩, by decide, by decide, by decide, List.Pairwise.nil, ?_⟩, rfl,
    by decide⟩
  · simp [State.reset]
  · simp [State.reset]
  · exact fun c hc => absurd hc List.not_mem_nil

/-- Settles O27: the two ways a step answers a next state. -/
theorem stepMarksOrAdvances : Obligations.StepMarksOrAdvances := by
  intro s t hstep
  obtain ⟨hmark, _, _, i, _, _, hexec⟩ := step_next hstep
  refine ⟨hmark, ?_⟩
  rcases exec_next_cases hexec with hraised | ⟨f, ⟨_, _, hpc⟩, rfl⟩
  · exact .inl hraised
  · exact .inr ⟨hmark, toNat_pc_add_four hpc, rfl⟩

/-! ### The access check over registers -/

/-- A trap that no row of the ladder reports is not reported. -/
theorem firstTrap_ne_some {l : List (Bool × AccessTrap)} {k : AccessTrap} (h : ∀ row ∈ l, row.2 ≠ k) :
    firstTrap l ≠ some k := by
  induction l with
  | nil => simp [firstTrap]
  | cons row rest ih =>
    obtain ⟨hrow, hrest⟩ := List.forall_mem_cons.mp h
    rw [firstTrap]
    split
    · simpa using hrow
    · exact ih hrest

/-- The check passes exactly where no row fires. -/
theorem firstTrap_eq_none_iff (l : List (Bool × AccessTrap)) : firstTrap l = none ↔ ∀ row ∈ l, row.1 = false := by
  induction l with
  | nil => simp [firstTrap]
  | cons row rest ih => cases hrow : row.1 <;> simp [firstTrap, hrow, ih]

/-- At EL3 CPACR_EL1 does not trap (log entry 4). -/
theorem trapsToEl1_of_el3 {r : AccessRegs} (h : r.el = .el3) (lo : Nat) : trapsToEl1 r lo = false := by
  simp [trapsToEl1, h]

/-- At EL3 CPTR_EL2 does not trap (log entry 4). -/
theorem trapsToEl2_of_el3 {r : AccessRegs} (h : r.el = .el3) (lo bit : Nat) : trapsToEl2 r lo bit = false := by
  simp [trapsToEl2, h]

/-- The ladder in Streaming SVE mode. -/
theorem accessLadder_streaming {c : Config} {r : AccessRegs} (hsme : c.featSme = true) (hsm : r.sm = true) :
    accessLadder c r =
      [(trapsToEl1 r 24, .sme 0b000#3), (trapsToEl1 r 20, .fp),
       (trapsToEl2 r 24 12, .sme 0b000#3), (trapsToEl2 r 20 10, .fp),
       (!r.cptrEl3.getLsbD 12, .sme 0b000#3), (r.cptrEl3.getLsbD 10, .fp)] := by
  simp [accessLadder, hsme, hsm]

/-- The ladder of an SME-only implementation outside Streaming SVE mode. -/
theorem accessLadder_smeOnly {c : Config} {r : AccessRegs} (hsme : c.featSme = true) (hsm : r.sm = false)
    (hsve : c.featSve = false) : accessLadder c r = [(true, .sme 0b010#3)] := by
  simp [accessLadder, hsme, hsm, hsve]

/-- The ladder in every other case. -/
theorem accessLadder_nonStreaming {c : Config} {r : AccessRegs} (hstream : ¬ (c.featSme = true ∧ r.sm = true))
    (honly : ¬ (c.featSme = true ∧ c.featSve = false)) :
    accessLadder c r =
      [(trapsToEl1 r 16, .sve), (trapsToEl1 r 20, .fp),
       (trapsToEl2 r 16 8, .sve), (trapsToEl2 r 20 10, .fp),
       (!r.cptrEl3.getLsbD 8, .sve), (r.cptrEl3.getLsbD 10, .fp)] := by
  rw [accessLadder, if_neg (by simpa using hstream), if_neg (by simpa using honly)]

/-- SMTC 010 is reported exactly on an SME-only implementation outside Streaming SVE mode. -/
theorem reports_smtc010_iff (c : Config) (r : AccessRegs) :
    firstTrap (accessLadder c r) = some (.sme 0b010#3) ↔ c.featSme = true ∧ r.sm = false ∧ c.featSve = false := by
  refine ⟨fun h => ?_, fun ⟨hsme, hsm, hsve⟩ => by rw [accessLadder_smeOnly hsme hsm hsve]; rfl⟩
  by_cases hstream : c.featSme = true ∧ r.sm = true
  · rw [accessLadder_streaming hstream.1 hstream.2] at h
    exact absurd h (firstTrap_ne_some (by simp))
  · by_cases honly : c.featSme = true ∧ c.featSve = false
    · exact ⟨honly.1, by simpa [honly.1] using hstream, honly.2⟩
    · rw [accessLadder_nonStreaming hstream honly] at h
      exact absurd h (firstTrap_ne_some (by simp))

/-- Outside Streaming SVE mode no SME trap with SMTC 000 is reported. -/
theorem reports_ne_smtc000 {c : Config} {r : AccessRegs} (hsm : r.sm = false) :
    firstTrap (accessLadder c r) ≠ some (.sme 0b000#3) := by
  by_cases honly : c.featSme = true ∧ c.featSve = false
  · rw [accessLadder_smeOnly honly.1 hsm honly.2]
    exact firstTrap_ne_some (by simp)
  · rw [accessLadder_nonStreaming (by simp [hsm]) honly]
    exact firstTrap_ne_some (by simp)

/-- Settles O7: the ladder of each mode read row by row. -/
theorem registerCheckReportsByMode : Obligations.RegisterCheckReportsByMode := by
  intro s r hregs
  rw [checkSveEnabled_registers hregs]
  refine ⟨reports_smtc010_iff s.cfg r, fun hsme hsm => ?_, reports_ne_smtc000, fun hsme hsm hel => ?_,
    fun hsve hsm hel => ?_, ?_⟩
  · rw [accessLadder_streaming hsme hsm]
    exact firstTrap_ne_some (by simp)
  · simp [accessLadder_streaming hsme hsm, firstTrap_eq_none_iff, trapsToEl1_of_el3 hel, trapsToEl2_of_el3 hel]
  · simp [accessLadder_nonStreaming (c := s.cfg) (r := r) (by simp [hsm]) (by simp [hsve]), firstTrap_eq_none_iff,
      trapsToEl1_of_el3 hel, trapsToEl2_of_el3 hel]
  · split
    · next hstream =>
      simp only [accessLadder_streaming hstream.1 hstream.2, firstTrap, trapsToEl1_iff, trapsToEl2_iff,
        Bool.not_eq_true']
    · next hstream =>
      split
      · next honly =>
        rw [accessLadder_smeOnly honly.1 (by simpa [honly.1] using hstream) honly.2]
        rfl
      · next honly =>
        simp only [accessLadder_nonStreaming hstream honly, firstTrap, trapsToEl1_iff, trapsToEl2_iff,
          Bool.not_eq_true']

/-! ### What a completed instruction does, and its frame -/

/-- The elements of a completed destination (R69). -/
theorem laneOf_completed (i : Instr) (f : Format) (s : State) {e : Nat} (he : e < elementCount s.cfg f) :
    laneOf (completed i f s) i.zd f e =
      if laneActive s i f e = true then (laneRounded s i f e).1
      else if (constantsOf i).merging = true then laneOf s i.zd f e else 0#f.width := by
  rw [laneOf, completed_z_dest]
  exact elem_operationOf i f s he

/-- Settles O9: the completed state read element by element and bit by bit. -/
theorem completesElementByElement : Obligations.CompletesElementByElement := by
  intro i f s hcan
  refine ⟨completed i f s, exec_of_canComplete hcan, fun e he => laneOf_completed i f s he, completed_fpsr_bit_iff i f s,
    completed_pc i f s, completed_z_other i f s, ?_, rfl⟩
  rw [completed_z_dest]
  exact lowBits_operationOf i f s

/-- Settles O18: a raise writes the mark alone, and completion only the destination, cumulative bits of FPSR and `pc`. -/
theorem onlyTheDestinationFlagsPcAndMarkChange : Obligations.OnlyTheDestinationFlagsPcAndMarkChange := by
  intro i s t hexec
  rcases exec_next_cases hexec with ⟨e, rfl⟩ | ⟨f, _, rfl⟩
  · exact ⟨fun _ _ => rfl, rfl, rfl, rfl, fun _ _ _ => rfl, fun _ _ _ _ _ => rfl, rfl, rfl, rfl, rfl, fun _ => rfl⟩
  · refine ⟨completed_z_other i f s, rfl, rfl, rfl, fun b hb4 hb7 => ?_, fun hint b hb0 hb4 hb7 => ?_, rfl, rfl, rfl,
      rfl, fun _ => rfl⟩
    · refine completed_fpsr_bit_of_unsignalled fun c _ => ?_
      have := cumulativeBit_le_or_eq c
      omega
    · refine completed_fpsr_bit_of_unsignalled fun c hc => ?_
      rcases mem_operationOf_intended hint hc with rfl | rfl | ⟨rfl, _⟩
      · exact hb0.symm
      · exact hb7.symm
      · exact hb4.symm

/-- Settles O19: completion only ORs cumulative bits into FPSR, which the intended `FPRoundInt` keeps to 0x91. -/
theorem fpsrFlagsOnlyAccumulate : Obligations.FpsrFlagsOnlyAccumulate := by
  intro i s t hexec
  rcases exec_next_cases hexec with ⟨e, rfl⟩ | ⟨f, _, rfl⟩
  · exact ⟨BitVec.and_self, fun _ => rfl⟩
  · refine ⟨?_, fun hint => ?_⟩
    · rw [completed_fpsr]
      ext k hk
      simpa using Or.inl
    · have hflags : fpFlags (operationOf i f s).2 &&& ~~~frintFlagMask = 0#64 := by
        refine fpFlags_and_eq_zero fun c hc => ?_
        rcases mem_operationOf_intended hint hc with rfl | rfl | ⟨rfl, _⟩ <;> decide
      rw [completed_fpsr, BitVec.and_or_distrib_right, hflags, BitVec.or_zero]

/-- Settles O20: bit 4 is the cumulative bit of Inexact alone, which needs `exact`. -/
theorem inexactFlagOnlyFromFrintx : Obligations.InexactFlagOnlyFromFrintx := by
  intro i s t hint hfrintx hexec
  rcases exec_next_cases hexec with ⟨e, rfl⟩ | ⟨f, _, rfl⟩
  · rfl
  · refine completed_fpsr_bit_of_unsignalled fun c hc => ?_
    rcases mem_operationOf_intended hint hc with rfl | rfl | ⟨_, hexact⟩
    · decide
    · decide
    · rw [constantsOf_exact, hfrintx] at hexact
      cases hexact

/-- No instruction faults. -/
theorem exec_ne_fault (i : Instr) (s : State) (e : Fault) : exec i s ≠ .fault e := by
  rcases exec_cases i s with ⟨_, he⟩ | ⟨_, _, _, he⟩ | ⟨_, _, _, he⟩ | ⟨_, _, _, _, he⟩ | ⟨_, _, he⟩ <;> rw [he] <;>
    exact nofun

/-- Why an instruction is refused: a floating-point trap taken (R102), or none taken and `pc + 4` too large (R25). -/
theorem exec_refused_cases {i : Instr} {s : State} {r : Refusal} (h : exec i s = .refused r) :
    ∃ f, Reaches s i f ∧
      ((TrapTaken s i f ∧ r = .trappedFpException (operationOf i f s).2) ∨
       (¬ TrapTaken s i f ∧ ¬ s.pc.toNat + 4 < 2 ^ 64 ∧ r = .pcWrap)) := by
  rcases exec_cases i s with ⟨_, he⟩ | ⟨_, _, _, he⟩ | ⟨f, hr, ht, he⟩ | ⟨f, hr, ht, hp, he⟩ | ⟨_, _, he⟩ <;>
    rw [he] at h <;> cases h
  · exact ⟨f, hr, .inl ⟨ht, rfl⟩⟩
  · exact ⟨f, hr, .inr ⟨ht, hp, rfl⟩⟩

/-- Settles O21: the conditions a trap refusal carries are those of the active elements. -/
theorem refusedOnlyForTrapOrPcWrap : Obligations.RefusedOnlyForTrapOrPcWrap := by
  intro i s
  refine ⟨exec_ne_fault i s, fun r h => ?_⟩
  obtain ⟨f, hr, ⟨ht, rfl⟩ | ⟨ht, hp, rfl⟩⟩ := exec_refused_cases h
  · exact ⟨f, hr, .inl ⟨ht, _, rfl, mem_operationOf i f s⟩⟩
  · exact ⟨f, hr, .inr ⟨ht, Nat.le_of_not_lt hp, rfl⟩⟩

/-! ### Which registers are read -/

/-- The Operation reads the governing bits of its predicate, its source and, where merging, its destination (R32, R69). -/
theorem operationOf_congr_registers {i : Instr} {f : Format} {s s' : State} (hcfg : s'.cfg = s.cfg)
    (hfpcr : s'.fpcr = s.fpcr) (hact : ∀ e < elementCount s.cfg f, laneActive s' i f e = laneActive s i f e)
    (hzn : s'.z[i.zn.val] = s.z[i.zn.val])
    (hzd : (constantsOf i).merging = true → s'.z[i.zd.val] = s.z[i.zd.val]) :
    operationOf i f s' = operationOf i f s := by
  have hmask : ∀ e < elementCount s.cfg f,
      activeElement (readP s' i.pg) e f.width = activeElement (readP s i.pg) e f.width := fun e he => by
    rw [readP_active s i f he, readP_active s' i f (by rwa [hcfg]), hact e he]
  have hany : anyActiveElement (readP s' i.pg) f.width (elementCount s.cfg f) =
      anyActiveElement (readP s i.pg) f.width (elementCount s.cfg f) := by
    rw [Bool.eq_iff_iff, anyActiveElement_iff, anyActiveElement_iff]
    exact exists_congr fun e => and_congr_right fun he => by rw [hmask e he]
  have hsource : readZ s' i.zn = readZ s i.zn := by rw [readZ, readZ, hcfg, hzn]
  have hstart : (if (constantsOf i).merging then readZ s' i.zd else 0#2048) =
      if (constantsOf i).merging then readZ s i.zd else 0#2048 :=
    ite_congr rfl (fun h => by rw [readZ, readZ, hcfg, hzd h]) fun _ => rfl
  simp only [operationOf, frintOperation, hcfg, hfpcr, hany, hsource, hstart]
  exact roundLoop_congr_mask _ _ _ _ _ _ _ hmask

/-- Settles O43: element by element for the governing bits, and the Operation reads no other bit. -/
theorem nonGoverningBitsAreIgnored : Obligations.NonGoverningBitsAreIgnored := by
  intro i f s hf
  refine ⟨fun hcan => ⟨completed i f s, exec_of_canComplete hcan, fun e he => laneOf_completed i f s he⟩,
    fun p hsve hbits => ?_⟩
  refine exec_map i s { s with p := p } (fun t => { t with p := p }) (fun _ => rfl) hsve (fun _ => rfl) (fun f' hf' => ?_)
    (fun _ => rfl) Iff.rfl (fun f' hop => by simp only [completed, hop]; rfl)
  obtain rfl : f = f' := Option.some.inj (hf.symm.trans hf')
  exact operationOf_congr_registers rfl rfl hbits rfl fun _ => rfl

/-- Settles O46: the Operation does not read the replaced registers, and completion does not write them. -/
theorem otherRegistersAreNeitherReadNorWritten : Obligations.OtherRegistersAreNeitherReadNorWritten := by
  intro i s nzcv x sp ffr hsve
  exact exec_map i s { s with nzcv := nzcv, x := x, sp := sp, ffr := ffr }
    (fun t => { t with nzcv := nzcv, x := x, sp := sp, ffr := ffr }) (fun _ => rfl) hsve (fun _ => rfl)
    (fun f _ => operationOf_congr i f _ _ rfl rfl rfl rfl) (fun _ => rfl) Iff.rfl
    (fun f hop => by simp only [completed, hop]; rfl)

/-- Settles O47: the two Operations agree, so neither is trapped and both complete with the same values. -/
theorem onlyNamedRegistersAreRead : Obligations.OnlyNamedRegistersAreRead := by
  intro i f s z p hcan hsve hzn hp hzd
  obtain ⟨⟨hfeat, hf, _⟩, htrap, hpc⟩ := id hcan
  have hact : ∀ e < elementCount s.cfg f, laneActive { s with z := z, p := p } i f e = laneActive s i f e :=
    fun e _ => congrArg (activeElement · e f.width) hp
  have hop : operationOf i f { s with z := z, p := p } = operationOf i f s :=
    operationOf_congr_registers rfl rfl hact hzn hzd
  have htrap' : ¬ TrapTaken { s with z := z, p := p } i f := by
    rw [← fpTrapTaken_iff, hop]
    exact mt (fpTrapTaken_iff i f s).mp htrap
  refine ⟨completed i f s, completed i f { s with z := z, p := p }, exec_of_canComplete hcan,
    exec_of_canComplete ⟨⟨hfeat, hf, hsve⟩, htrap', hpc⟩, ?_, ?_, rfl⟩
  · rw [completed_z_dest, completed_z_dest, hop]
  · rw [completed_fpsr, completed_fpsr, hop]

end Sys2Proof.Machine

/-! Proofs of the memory family (spec 20_memory.md): the bytes of an instruction decode to it, what a step does with the
bytes at `pc`, and an instruction does not depend on where it stands. -/

namespace Sys2Proof

/-! ### Decoding what was encoded -/

/-- A row's word with any fields added decodes to that row's instruction with those fields (R52, R60). -/
theorem decodeWord_encodeFields {r : Row} (hr : r ∈ rows) (t : Size) (d : Fin 32) (g : Fin 8) (n : Fin 32) :
    decodeWord (encodeFields r.word t d g n) = some (r.instr t d g n) := by
  obtain ⟨hmask, hclear⟩ := rows_clear r hr
  rw [decodeWord, encodeFields_masked _ _ _ _ _ hmask, find_row r hr, Option.map_some,
    sizeOfWord_encodeFields _ _ _ _ _ hclear, zdOfWord_encodeFields _ _ _ _ _ hclear,
    pgOfWord_encodeFields _ _ _ _ _ hclear, znOfWord_encodeFields _ _ _ _ _ hclear]

/-- Every instruction carries the word of its own row (R61). -/
theorem Laws.wordOfRow (i : Instr) : Laws.WordOfRow.Statement i := by
  cases i with
  | frintxM t d g n => exact Laws.WordOfRow.frintxM t d g n
  | frintxZ t d g n => exact Laws.WordOfRow.frintxZ t d g n
  | frintiM t d g n => exact Laws.WordOfRow.frintiM t d g n
  | frintiZ t d g n => exact Laws.WordOfRow.frintiZ t d g n
  | frintaM t d g n => exact Laws.WordOfRow.frintaM t d g n
  | frintaZ t d g n => exact Laws.WordOfRow.frintaZ t d g n
  | frintnM t d g n => exact Laws.WordOfRow.frintnM t d g n
  | frintnZ t d g n => exact Laws.WordOfRow.frintnZ t d g n
  | frintzM t d g n => exact Laws.WordOfRow.frintzM t d g n
  | frintzZ t d g n => exact Laws.WordOfRow.frintzZ t d g n
  | frintmM t d g n => exact Laws.WordOfRow.frintmM t d g n
  | frintmZ t d g n => exact Laws.WordOfRow.frintmZ t d g n
  | frintpM t d g n => exact Laws.WordOfRow.frintpM t d g n
  | frintpZ t d g n => exact Laws.WordOfRow.frintpZ t d g n

/-- The word of an instruction decodes to that instruction. -/
theorem decodeWord_encode (i : Instr) : decodeWord (encode i) = some i := by
  obtain ⟨r, hr, -, hi⟩ := Laws.wordOfRow i
  have henc : encode i = encodeFields r.word i.size i.zd i.pg i.zn :=
    (congrArg encode hi).trans (row_instr r hr i.size i.zd i.pg i.zn).1
  rw [henc, decodeWord_encodeFields hr, ← hi]

/-- No instruction is decoded exactly where the masked word is no row's (R57). -/
theorem decodeWord_eq_none_iff (w : Word) : decodeWord w = none ↔ ∀ r ∈ rows, w &&& rowMask ≠ r.word := by
  simp only [decodeWord, Option.map_eq_none_iff, List.find?_eq_none, beq_iff_eq, ne_eq]

/-- The bytes after an instruction's four are left over by the decoder. -/
theorem decode_bytesOfWord_append {w : Word} {i : Instr} (h : decodeWord w = some i) (rest : List Byte) :
    decode (bytesOfWord w ++ rest) = .ok (i, rest) := by
  simp only [bytesOfWord, List.cons_append, List.nil_append, decode, Machine.wordOfBytes_bytesOfWord, h]

/-- Settles O1: an instruction's word is its row's word with its fields added, and both are read back. -/
theorem decodeOfEncodeIsTheInstruction : Obligations.DecodeOfEncodeIsTheInstruction :=
  fun i rest => decode_bytesOfWord_append (decodeWord_encode i) rest

end Sys2Proof

namespace Sys2Proof.Machine

/-! ### What a step does with the bytes at `pc` -/

/-- Without a fetch there is no next state. -/
theorem step_of_fetch_error {s : State} {e : Fault} (h : fetch s = .error e) : step s = .fault e := by
  rw [step, h]

/-- A set mark stops the fetch (R114). -/
theorem fetch_of_mark {s : State} {e : Raised} (h : s.mark = some e) : fetch s = .error (.stoppedByMark e) := by
  simp only [fetch, h]

/-- A misaligned `pc` is stuck (R38). -/
theorem fetch_of_misaligned {s : State} (hmark : s.mark = none) (hpc : s.pc.toNat % 4 ≠ 0) :
    fetch s = .error .stuckPcMisaligned := by
  simp only [fetch, hmark, if_neg hpc]

/-- An absent word is stuck (R38). -/
theorem fetch_of_noWord {s : State} (hmark : s.mark = none) (hpc : s.pc.toNat % 4 = 0)
    (hword : Memory.wordBytes s.text s.pc.toNat = none) : fetch s = .error .stuckNoWord := by
  simp only [fetch, hmark, if_pos hpc, hword]

/-- A word at an aligned, unmarked `pc` is fetched (R37). -/
theorem fetch_of_word {s : State} {bytes : List Byte} (hmark : s.mark = none) (hpc : s.pc.toNat % 4 = 0)
    (hword : Memory.wordBytes s.text s.pc.toNat = some bytes) : fetch s = .ok bytes := by
  simp only [fetch, hmark, if_pos hpc, hword]

/-- Settles O23: the fetch and the decoding leave nothing but the instruction. -/
theorem stepRunsTheDecodedInstruction : Obligations.StepRunsTheDecodedInstruction := by
  intro s bytes rest i hmark hpc hword hdec
  simp only [step, fetch_of_word hmark hpc hword, hdec]

/-- A fetched word of a row is run as its instruction. -/
theorem step_of_decodeWord_some {s : State} {w : Word} {i : Instr} (hmark : s.mark = none) (hpc : s.pc.toNat % 4 = 0)
    (hword : Memory.wordBytes s.text s.pc.toNat = some (bytesOfWord w)) (hdec : decodeWord w = some i) :
    step s = exec i s :=
  stepRunsTheDecodedInstruction s (bytesOfWord w) [] i hmark hpc hword (decode_bytesOfWord_append hdec [])

/-- A fetched word of no row is refused with the word (R57). -/
theorem step_of_decodeWord_none {s : State} {w : Word} (hmark : s.mark = none) (hpc : s.pc.toNat % 4 = 0)
    (hword : Memory.wordBytes s.text s.pc.toNat = some (bytesOfWord w)) (hdec : decodeWord w = none) :
    step s = .refused (.notFrintEncoding w) := by
  simp only [step, fetch_of_word hmark hpc hword, decode_bytesOfWord, hdec, outcomeOfReject]

/-- Settles O24: each clause is one way the fetch or the decoding ends without an instruction. -/
theorem noStepWithoutAnInstruction : Obligations.NoStepWithoutAnInstruction := by
  intro s
  refine ⟨fun e he => ?_, fun hmark hpc => ?_, fun hmark hpc hword => ?_, fun w hmark hpc hword hrows => ?_⟩
  · exact step_of_fetch_error (fetch_of_mark he)
  · exact step_of_fetch_error (fetch_of_misaligned hmark hpc)
  · exact step_of_fetch_error (fetch_of_noWord hmark hpc hword)
  · exact step_of_decodeWord_none hmark hpc hword ((decodeWord_eq_none_iff w).mpr hrows)

/-! ### A word placed at `pc` -/

/-- All 32 bits given, the word placed is the word itself. -/
theorem withFetchWord_toNat (s : State) (w : Word) : s.withFetchWord 32 w.toNat = placeAtPc s w := by
  rw [State.withFetchWord, Nat.mod_eq_of_lt w.isLt, BitVec.ofNat_toNat, BitVec.setWidth_eq]

/-- The word placed at an aligned `pc` is the word there: an aligned word does not reach past the address space. -/
theorem wordBytes_placeAtPc {s : State} (w : Word) (hpc : s.pc.toNat % 4 = 0) (htext : Memory.wf s.text) :
    Memory.wordBytes (placeAtPc s w).text (placeAtPc s w).pc.toNat = some (bytesOfWord w) := by
  have hlt : s.pc.toNat < 2 ^ 64 := s.pc.isLt
  exact Memory.wordBytes_writeBytes htext s.pc.toNat w (by omega)

/-- Settles O30: the placed word is fetched, and decodes or not. -/
theorem placedWordRunsNext : Obligations.PlacedWordRunsNext := by
  intro s w hmark hpc htext
  have hword := wordBytes_placeAtPc w hpc htext
  rw [withFetchWord_toNat]
  cases hdec : decodeWord w with
  | some i => exact step_of_decodeWord_some hmark hpc hword hdec
  | none => exact step_of_decodeWord_none hmark hpc hword hdec

/-! ### Independence of the address -/

/-- Settles O45: neither the Operation nor the checks before it read `pc` or the text, and completion adds 4 to
either `pc`. -/
theorem effectIsIndependentOfAddress : Obligations.EffectIsIndependentOfAddress := by
  intro i s a m hpc ha hsve
  have hraised : a = s.pc - s.pc + a := by rw [BitVec.sub_self, BitVec.zero_add]
  have hmoved : a + 4#64 = s.pc + 4#64 - s.pc + a := by rw [BitVec.add_comm s.pc, BitVec.add_sub_cancel, BitVec.add_comm]
  refine exec_map i s { s with pc := a, text := m } (fun t => { t with pc := t.pc - s.pc + a, text := m }) (fun _ => rfl)
    hsve (fun _ => rfl) (fun f _ => operationOf_congr i f _ _ rfl rfl rfl rfl) (fun _ => ?_) (iff_of_true ha hpc)
    (fun f hop => ?_)
  · simp only [← hraised]
  · simp only [completed, hop, ← hmoved]
    rfl

end Sys2Proof.Machine

/-! Proofs of the encoding family (spec 30_encoding.md): a word and its instruction determine each other, the register
numbers are the word's fields, and UNDEFINED is raised in the two cases of R56 with the word fetched. -/

namespace Sys2Proof

/-! ### A word and its instruction -/

/-- A decoded instruction is its row's word with the fields of the word added, and its parts are those fields (R60). -/
theorem parts_of_decodeWord {w : Word} {i : Instr} (h : decodeWord w = some i) :
    encode i = w ∧ i.zd = zdOfWord w ∧ i.pg = pgOfWord w ∧ i.zn = znOfWord w := by
  obtain ⟨r, hr, hword, rfl⟩ := decodeWord_some h
  obtain ⟨henc, -, hzd, hpg, hzn⟩ := row_instr r hr (sizeOfWord w) (zdOfWord w) (pgOfWord w) (znOfWord w)
  refine ⟨?_, hzd, hpg, hzn⟩
  rw [henc, ← hword, encodeFields_fieldsOfWord]

/-- Settles O2: the row's word is the word's masked bits, and the four fields are all the others. -/
theorem encodeOfDecodedIsTheWord : Obligations.EncodeOfDecodedIsTheWord :=
  fun _ _ h => (parts_of_decodeWord h).1

/-- A word decodes to an instruction exactly where it is the instruction's word. -/
theorem decodeWord_eq_some_iff (w : Word) (i : Instr) : decodeWord w = some i ↔ encode i = w :=
  ⟨encodeOfDecodedIsTheWord w i, fun h => h ▸ decodeWord_encode i⟩

/-- Settles O4: six of the words are words of instructions, and the other two match no row. -/
theorem writtenOutWordsDecode : Obligations.WrittenOutWordsDecode := by
  unfold Obligations.WrittenOutWordsDecode
  simp only [decodeWord_eq_some_iff, decodeWord_eq_none_iff]
  decide

/-! ### The register numbers -/

/-- `Pg` read unsigned (R54). -/
theorem pgOfWord_val (w : Word) : (pgOfWord w).val = w.toNat / 2 ^ 10 % 8 := by
  simp only [pgOfWord, BitVec.val_toFin, BitVec.extractLsb'_toNat, Nat.shiftRight_eq_div_pow, Nat.reducePow]

/-- `Zn` read unsigned (R54). -/
theorem znOfWord_val (w : Word) : (znOfWord w).val = w.toNat / 2 ^ 5 % 32 := by
  simp only [znOfWord, BitVec.val_toFin, BitVec.extractLsb'_toNat, Nat.shiftRight_eq_div_pow, Nat.reducePow]

/-- `Zd` read unsigned (R54). -/
theorem zdOfWord_val (w : Word) : (zdOfWord w).val = w.toNat % 32 := by
  simp only [zdOfWord, BitVec.val_toFin, BitVec.extractLsb'_toNat, Nat.shiftRight_zero, Nat.reducePow]

/-- Settles O3: the fields fill in the row's instruction, and the row's word with any fields added decodes. -/
theorem registerNumbersAreUnsignedFields : Obligations.RegisterNumbersAreUnsignedFields := by
  refine ⟨fun w i h => ?_, fun r hr t d g n => ⟨encodeFields r.word t d g n, decodeWord_encodeFields hr t d g n⟩⟩
  obtain ⟨-, hzd, hpg, hzn⟩ := parts_of_decodeWord h
  exact ⟨hpg ▸ pgOfWord_val w, hzn ▸ znOfWord_val w, hzd ▸ zdOfWord_val w⟩

end Sys2Proof

namespace Sys2Proof.Machine

/-! ### UNDEFINED -/

/-- The features of a class are absent (R3, R66). -/
theorem featuresPresent_eq_false_iff (c : Config) (merging : Bool) :
    featuresPresent c merging = false ↔
      (merging = true ∧ c.featSve = false ∧ c.featSme = false) ∨
      (merging = false ∧ c.featSve2p2 = false ∧ c.featSme2p2 = false) := by
  cases merging <;> simp [featuresPresent]

/-- UndefinedInstruction in the mark of a next state was raised by the instruction, with its word, or the instruction
completed and the mark stood there before. -/
theorem exec_next_undefinedInstruction {i : Instr} {s t : State} {w : Word} (h : exec i s = .next t)
    (hmark : t.mark = some (.undefinedInstruction w)) :
    (isUndefined i s.cfg = true ∧ encode i = w) ∨ ∃ f, t = completed i f s := by
  rcases exec_cases i s with ⟨hu, he⟩ | ⟨_, _, _, he⟩ | ⟨_, _, _, he⟩ | ⟨_, _, _, _, he⟩ | ⟨f, _, he⟩ <;>
    rw [he] at h <;> cases h
  · cases hmark
    exact .inl ⟨hu, rfl⟩
  · cases hmark
  · exact .inr ⟨f, rfl⟩

/-- An instruction raises UndefinedInstruction and changes nothing else exactly where it is UNDEFINED: completing would
have moved `pc` (R25, R106, R114). -/
theorem exec_eq_raise_undefined_iff (i : Instr) (s : State) :
    exec i s = .next { s with mark := some (.undefinedInstruction (encode i)) } ↔ isUndefined i s.cfg = true := by
  refine ⟨fun h => ?_, exec_of_undefined⟩
  obtain ⟨hu, -⟩ | ⟨f, hf⟩ := exec_next_undefinedInstruction h rfl
  · exact hu
  · have hpc : s.pc = s.pc + 4#64 := congrArg State.pc hf
    bv_omega

/-- Settles O5: raising is being UNDEFINED, and the features of the two forms are spelt out. -/
theorem undefinedInExactlyTwoCases : Obligations.UndefinedInExactlyTwoCases := by
  intro i s
  rw [exec_eq_raise_undefined_iff, isUndefined_iff, featuresPresent_eq_false_iff, or_assoc]

/-- Settles O29: the step decoded the fetched word, which is the word of the instruction that raised. -/
theorem undefinedRecordsTheFetchedWord : Obligations.UndefinedRecordsTheFetchedWord := by
  intro s t w hstep hmark
  obtain ⟨hclear, -, w', i, hword, hdec, hexec⟩ := step_next hstep
  obtain ⟨-, rfl⟩ | ⟨f, rfl⟩ := exec_next_undefinedInstruction hexec hmark
  · rw [encodeOfDecodedIsTheWord w' i hdec]
    exact hword
  · rw [completed_mark, hclear] at hmark
    cases hmark

end Sys2Proof.Machine

/-! Proofs of the FRINT family (spec 40_frint.md): what each mnemonic makes of an element, the Inexact flag,
instructions that differ in their rounding or in `exact` alone, and instructions that change nothing. -/

namespace Sys2Proof.Machine

/-! ### The rounding options as integer functions (R93, R99) -/

/-- Rounding toward minus infinity is the floor. -/
theorem roundsTo_negInf_iff {q : ℚ} {k : ℤ} : RoundsTo .negInf q k ↔ k = ⌊q⌋ := by
  rw [eq_comm, Int.floor_eq_iff]
  rfl

/-- Rounding toward plus infinity is the ceiling. -/
theorem roundsTo_posInf_iff {q : ℚ} {k : ℤ} : RoundsTo .posInf q k ↔ k = ⌈q⌉ := by
  rw [eq_comm, Int.ceil_eq_iff, and_comm, sub_lt_iff_lt_add]
  rfl

/-- Truncation is the floor of a value that is not negative and the ceiling of one that is. -/
theorem eq_of_roundsTo_zero {q : ℚ} {k : ℤ} (h : RoundsTo .zero q k) : k = if 0 ≤ q then ⌊q⌋ else ⌈q⌉ := by
  obtain ⟨hle, hlt, hsign⟩ := h
  split
  · next hq =>
    have hk : (0 : ℚ) ≤ k := by
      by_contra hk
      rw [abs_of_nonneg hq, abs_of_neg (not_le.mp hk)] at hle
      nlinarith
    rw [abs_of_nonneg hq, abs_of_nonneg hk] at hle hlt
    exact roundsTo_negInf_iff.mp ⟨hle, hlt⟩
  · next hq =>
    have hk : (k : ℚ) ≤ 0 := by
      by_contra hk
      nlinarith
    rw [abs_of_neg (not_le.mp hq), abs_of_nonpos hk] at hle hlt
    exact roundsTo_posInf_iff.mp ⟨by linarith, by linarith⟩

/-- A magnitude below 1 is truncated to 0. -/
theorem eq_zero_of_roundsTo_zero {q : ℚ} {k : ℤ} (h : RoundsTo .zero q k) (hq : |q| < 1) : k = 0 := by
  have hk : |(k : ℚ)| < 1 := h.1.trans_lt hq
  exact Int.abs_lt_one_iff.mp (by exact_mod_cast hk)

/-- Nearest with ties away is the floor of one half more for a value that is not negative, and the ceiling of one half
less for one that is. -/
theorem eq_of_roundsTo_tieAway {q : ℚ} {k : ℤ} (h : RoundsTo .tieAway q k) :
    k = if 0 ≤ q then ⌊q + 1 / 2⌋ else ⌈q - 1 / 2⌉ := by
  obtain ⟨hle, htie⟩ := h
  obtain ⟨hlo, hhi⟩ := abs_le.mp hle
  split
  · next hq =>
    refine roundsTo_negInf_iff.mp ⟨by linarith, lt_of_le_of_ne (by linarith) fun heq => ?_⟩
    have hdist : q - k = 1 / 2 := by linarith
    have haway := htie (by rw [hdist]; norm_num)
    have hk : (-1 : ℚ) < k := by linarith
    have hk' : (0 : ℚ) ≤ k := by exact_mod_cast (show (0 : ℤ) ≤ k from by exact_mod_cast hk)
    rw [abs_of_nonneg hq, abs_of_nonneg hk'] at haway
    linarith
  · next hq =>
    refine roundsTo_posInf_iff.mp ⟨by linarith, lt_of_le_of_ne (by linarith) fun heq => ?_⟩
    have hdist : q - k = -(1 / 2) := by linarith
    have haway := htie (by rw [hdist]; norm_num)
    have hk : (k : ℚ) < 1 := by linarith
    have hk' : (k : ℚ) ≤ 0 := by exact_mod_cast (show k ≤ (0 : ℤ) from Int.lt_add_one_iff.mp (by exact_mod_cast hk))
    rw [abs_of_neg (not_le.mp hq), abs_of_nonpos hk'] at haway
    linarith

/-- 0 is rounded to 0 by every option. -/
theorem roundsTo_zero_zero (r : Rounding) : RoundsTo r 0 0 := by
  cases r <;> norm_num [RoundsTo]

/-- A value is no integer exactly where it is not its own floor. -/
theorem forall_ne_intCast_iff (q : ℚ) : (∀ k : ℤ, q ≠ k) ↔ q ≠ ⌊q⌋ := by
  refine ⟨fun h => h _, fun h k hk => h ?_⟩
  rw [hk, Int.floor_intCast]

/-! ### The element of an integer (R98, R100) -/

/-- The element `FPRoundInt` returns for the rounded integer `k` of an operand with the sign `sign` (R98). -/
def integerElement (f : Format) (sign : Bool) (k : ℤ) : BitVec f.width :=
  if k = 0 then signedZero f sign else encodeInteger f sign k.natAbs

/-- The integer `k` has the sign `sign` and fits the format, so that R100 encodes it exactly. -/
structure Representable (f : Format) (sign : Bool) (k : ℤ) : Prop where
  sign_eq : k = if sign then -(k.natAbs : ℤ) else k.natAbs
  fits : k ≠ 0 → k.natAbs.log2 + f.bias < 2 ^ f.expBits - 1 ∧
    (k.natAbs.log2 ≤ f.fracBits ∨ 2 ^ (k.natAbs.log2 - f.fracBits) ∣ k.natAbs)

theorem representable_zero (f : Format) (sign : Bool) : Representable f sign 0 :=
  ⟨by simp, fun h => absurd rfl h⟩

/-- The rounded integer of a finite operand is representable. -/
theorem representable_roundedInt (r : Rounding) {f : Format} {op : BitVec f.width} (h : isFinite f op = true) :
    Representable f op.msb (roundedInt r (exactValue f op)) :=
  ⟨roundedInt_sign r f op, roundedInt_fits r f op h⟩

/-- The element of an integer has its sign and value, and is a Zero or a Nonzero. -/
theorem integerElement_spec {f : Format} {sign : Bool} {k : ℤ} (h : Representable f sign k) :
    (integerElement f sign k).msb = sign ∧ rationalValue f (integerElement f sign k) = k ∧
      isFinite f (integerElement f sign k) = true ∧ classify f (integerElement f sign k) ≠ .denormal := by
  obtain ⟨hsign, hfits⟩ := h
  unfold integerElement
  split
  · next hk =>
    refine ⟨(signedZero_fields f sign).2.2, ?_, isFinite_signedZero f sign, ?_⟩
    · rw [rationalValue_signedZero, hk, Int.cast_zero]
    · rw [classify_signedZero]
      decide
  · next hk =>
    obtain ⟨hexp, hdvd⟩ := hfits hk
    obtain ⟨hfield, hmsb, hvalue⟩ := encodeInteger_spec f sign k.natAbs (Int.natAbs_ne_zero.mpr hk) hexp hdvd
    have hbias : f.bias ≠ 0 := by cases f <;> decide
    refine ⟨hmsb, ?_, ?_, ?_⟩
    · rw [hvalue]
      conv_rhs => rw [hsign]
      cases sign <;> simp
    · rw [isFinite_iff, hfield]
      omega
    · rw [classify, if_neg (by omega), if_neg (by omega)]
      decide

/-- `FPRoundInt` on a finite operand (R98): the element of the integer its unpacked value is rounded to (R96, R99). -/
theorem fpRoundInt_finite (afp : Bool) (fpcr : Word64) (r : Rounding) (exact : Bool) {f : Format} {op : BitVec f.width}
    (h : isFinite f op = true) :
    ∃ k : ℤ, RoundsTo r (unpackedValue afp fpcr f op) k ∧ Representable f op.msb k ∧
      (fpRoundInt afp fpcr r exact f op).1 = integerElement f op.msb k := by
  cases hfl : isFlushed afp fpcr f op
  · refine ⟨roundedInt r (exactValue f op), ?_, representable_roundedInt r h, ?_⟩
    · rw [unpackedValue, hfl]
      exact roundsTo_roundedInt r f op
    · rw [fpRoundInt_of_finite afp fpcr r exact f op h hfl]
      rfl
  · refine ⟨0, ?_, representable_zero f op.msb, ?_⟩
    · rw [unpackedValue, hfl]
      exact roundsTo_zero_zero r
    · rw [fpRoundInt_of_flushed afp fpcr r exact f op hfl]
      rfl

/-- The Default NaN is quiet (R101). -/
theorem fpDefaultNaN_quiet (afp : Bool) (fpcr : Word64) (f : Format) :
    (fpDefaultNaN afp fpcr f).getLsbD (f.fracBits - 1) = true := by
  unfold fpDefaultNaN
  cases altFp afp fpcr <;> cases f <;> decide

/-- A NaN gives a NaN with the quiet bit set (R101). -/
theorem fpRoundInt_nan_fields (afp : Bool) (fpcr : Word64) (r : Rounding) (exact : Bool) {f : Format}
    {op : BitVec f.width} (hexp : expField f op = 2 ^ f.expBits - 1) (hfrac : fracField f op ≠ 0) :
    expField f (fpRoundInt afp fpcr r exact f op).1 = 2 ^ f.expBits - 1 ∧
      fracField f (fpRoundInt afp fpcr r exact f op).1 ≠ 0 ∧
      (fpRoundInt afp fpcr r exact f op).1.getLsbD (f.fracBits - 1) = true := by
  rw [fpRoundInt_of_nan afp fpcr r exact f op hexp hfrac]
  cases hdn : fpcrDN fpcr
  · obtain ⟨-, hexp', hquiet, hfrac'⟩ := quiet_fields f op
    exact ⟨hexp'.trans hexp, hfrac', hquiet⟩
  · obtain ⟨-, hexp', hfrac'⟩ := defaultNaN_fields afp fpcr f
    exact ⟨hexp', hfrac'.trans_ne (by positivity), fpDefaultNaN_quiet afp fpcr f⟩

/-- A NaN gives a quiet NaN (R101). -/
theorem classify_fpRoundInt_nan (afp : Bool) (fpcr : Word64) (r : Rounding) (exact : Bool) {f : Format}
    {op : BitVec f.width} (h : classify f op = .qnan ∨ classify f op = .snan) :
    classify f (fpRoundInt afp fpcr r exact f op).1 = .qnan := by
  obtain ⟨hexp, hfrac⟩ := (nan_iff f op).mp h
  obtain ⟨hexp', hfrac', hquiet⟩ := fpRoundInt_nan_fields afp fpcr r exact hexp hfrac
  rw [classify_nan f _ hexp' hfrac', if_pos hquiet]

/-- An element that is not finite is an infinity or a NaN (R95). -/
theorem infinity_or_nan_of_not_finite {f : Format} {op : BitVec f.width} (h : ¬ isFinite f op = true) :
    classify f op = .infinity ∨ (expField f op = 2 ^ f.expBits - 1 ∧ fracField f op ≠ 0) := by
  have hexp : expField f op = 2 ^ f.expBits - 1 := not_not.mp (mt (isFinite_iff f op).mpr h)
  by_cases hfrac : fracField f op = 0
  · exact .inl ((infinity_iff f op).mpr ⟨hexp, hfrac⟩)
  · exact .inr ⟨hexp, hfrac⟩

/-! ### The conditions of one element -/

/-- Inexact is signalled exactly for a finite operand whose unpacked value is no integer, and with `exact` (R98,
R103). -/
theorem inexact_mem_fpRoundInt_iff (afp : Bool) (fpcr : Word64) (r : Rounding) (exact : Bool) (f : Format)
    (op : BitVec f.width) :
    .inexact ∈ (fpRoundInt afp fpcr r exact f op).2 ↔ exact = true ∧ isFinite f op = true ∧
      unpackedValue afp fpcr f op ≠ ⌊unpackedValue afp fpcr f op⌋ := by
  by_cases hfin : isFinite f op = true
  · cases hfl : isFlushed afp fpcr f op
    · rw [fpRoundInt_of_finite afp fpcr r exact f op hfin hfl, unpackedValue, hfl]
      simp [hfin, ← error_eq_zero_iff, and_comm]
    · rw [fpRoundInt_of_flushed afp fpcr r exact f op hfl, unpackedValue, hfl]
      simp
  · rcases infinity_or_nan_of_not_finite hfin with hinf | ⟨hexp, hfrac⟩
    · simp [fpRoundInt_of_infinity afp fpcr r exact f op hinf, hfin]
    · simp [fpRoundInt_of_nan afp fpcr r exact f op hexp hfrac, hfin]

/-- The result does not depend on `exact`, and `exact` decides about no condition but Inexact (R98). -/
theorem fpRoundInt_exact_congr (afp : Bool) (fpcr : Word64) (r : Rounding) (exact exact' : Bool) (f : Format)
    (op : BitVec f.width) :
    (fpRoundInt afp fpcr r exact f op).1 = (fpRoundInt afp fpcr r exact' f op).1 ∧
      ∀ c ≠ FpExc.inexact, c ∈ (fpRoundInt afp fpcr r exact f op).2 ↔ c ∈ (fpRoundInt afp fpcr r exact' f op).2 := by
  by_cases hfin : isFinite f op = true
  · cases hfl : isFlushed afp fpcr f op
    · simp only [fpRoundInt_of_finite afp fpcr r _ f op hfin hfl, true_and]
      intro c hc
      simp [hc]
    · simp [fpRoundInt_of_flushed afp fpcr r _ f op hfl]
  · rcases infinity_or_nan_of_not_finite hfin with hinf | ⟨hexp, hfrac⟩
    · simp [fpRoundInt_of_infinity afp fpcr r _ f op hinf]
    · simp [fpRoundInt_of_nan afp fpcr r _ f op hexp hfrac]

/-! ### Integral operands -/

/-- A finite element whose exponent field is 0 has a magnitude below 1 (R95). -/
theorem abs_rationalValue_lt_one {f : Format} {op : BitVec f.width} (h : expField f op = 0) :
    |rationalValue f op| < 1 := by
  have hsig : significand f op < 2 ^ f.fracBits := by
    rw [significand, if_pos h]
    exact fracField_lt f op
  have hplace : lastPlace f op ≤ -f.fracBits := by
    rw [lastPlace, if_pos h]
    cases f <;> decide
  have habs : |rationalValue f op| = significand f op * (2 : ℚ) ^ lastPlace f op := by
    rw [rationalValue_zpow, abs_mul, abs_of_pos (zpow_pos two_pos _ : (0 : ℚ) < 2 ^ lastPlace f op)]
    split <;> simp
  calc |rationalValue f op| = significand f op * (2 : ℚ) ^ lastPlace f op := habs
    _ ≤ significand f op * (2 : ℚ) ^ (-f.fracBits : ℤ) := by gcongr; norm_num
    _ < 2 ^ f.fracBits * (2 : ℚ) ^ (-f.fracBits : ℤ) := by gcongr; exact_mod_cast hsig
    _ = 1 := by rw [zpow_neg, zpow_natCast, mul_inv_cancel₀ (by positivity)]

/-- The only finite elements of value 0 are the two zeros. -/
theorem eq_signedZero_of_rationalValue {f : Format} {op : BitVec f.width} (h : rationalValue f op = 0) :
    op = signedZero f op.msb := by
  have hsig : significand f op = 0 := by
    rw [rationalValue_zpow, mul_eq_zero_iff_right (zpow_pos two_pos _).ne'] at h
    split at h <;> simpa using h
  obtain ⟨hexp, hfrac, hmsb⟩ := signedZero_fields f op.msb
  unfold significand at hsig
  split at hsig
  · next h0 => exact eq_of_fields f hmsb.symm (h0.trans hexp.symm) (hsig.trans hfrac.symm)
  · have : 0 < 2 ^ f.fracBits := by positivity
    omega

/-- An element whose value is an integer other than 0 is a Nonzero (R95). -/
theorem expField_ne_zero_of_rationalValue {f : Format} {op : BitVec f.width} {k : ℤ} (hk : rationalValue f op = k)
    (h0 : k ≠ 0) : expField f op ≠ 0 := fun he => by
  have hlt := abs_rationalValue_lt_one he
  rw [hk] at hlt
  exact h0 (Int.abs_lt_one_iff.mp (by exact_mod_cast hlt))

/-- An element whose value is an integer is the element of that integer. -/
theorem eq_integerElement {f : Format} {op : BitVec f.width} {k : ℤ} (hk : rationalValue f op = k)
    (hrep : Representable f op.msb k) : op = integerElement f op.msb k := by
  by_cases h0 : k = 0
  · rw [integerElement, if_pos h0]
    exact eq_signedZero_of_rationalValue (by rw [hk, h0, Int.cast_zero])
  · obtain ⟨hmsb, hvalue, -⟩ := integerElement_spec hrep
    exact eq_of_value f (expField_ne_zero_of_rationalValue hk h0) (expField_ne_zero_of_rationalValue hvalue h0)
      hmsb.symm (hk.trans hvalue.symm)

/-- Settles O33: the value has no error, so it is its own rounded integer, and an element is determined by its sign and
its integer. -/
theorem integralOperandIsUnchanged : Obligations.IntegralOperandIsUnchanged := by
  rintro afp fpcr r exact f op (hinf | ⟨hfin, hfl, k, hk⟩)
  · exact fpRoundInt_of_infinity afp fpcr r exact f op hinf
  · have hfloor : (exactValue f op).roundDown = k := by rw [← floor_rationalValue, hk, Int.floor_intCast]
    have herr : (exactValue f op).error = 0 := by rw [error_eq_zero_iff, hk, Int.floor_intCast]
    have hround : roundedInt r (exactValue f op) = k := ((roundedInt_bounds r _).2.2 herr).trans hfloor
    have hop : op = integerElement f op.msb k := eq_integerElement hk (hround ▸ representable_roundedInt r hfin)
    rw [fpRoundInt_of_finite afp fpcr r exact f op hfin hfl, hround]
    exact Prod.ext hop.symm (if_neg fun h => h.1 herr)

/-- A result rounded again, by any option, is returned as it is with no condition (R98, R99, R101). -/
theorem fpRoundInt_fpRoundInt (afp : Bool) (fpcr : Word64) (r r' : Rounding) (exact exact' : Bool) (f : Format)
    (op : BitVec f.width) :
    fpRoundInt afp fpcr r' exact' f (fpRoundInt afp fpcr r exact f op).1 =
      ((fpRoundInt afp fpcr r exact f op).1, []) := by
  by_cases hfin : isFinite f op = true
  · obtain ⟨k, -, hrep, hres⟩ := fpRoundInt_finite afp fpcr r exact hfin
    obtain ⟨-, hvalue, hfin', hclass⟩ := integerElement_spec hrep
    rw [hres]
    exact integralOperandIsUnchanged afp fpcr r' exact' f _ (.inr ⟨hfin', by simp [isFlushed, hclass], k, hvalue⟩)
  · rcases infinity_or_nan_of_not_finite hfin with hinf | ⟨hexp, hfrac⟩
    · simp only [fpRoundInt_of_infinity afp fpcr _ _ f op hinf]
    · obtain ⟨hexp', hfrac', hquiet⟩ := fpRoundInt_nan_fields afp fpcr r exact hexp hfrac
      rw [fpRoundInt_of_nan afp fpcr r' exact' f _ hexp' hfrac', if_pos hquiet,
        fpRoundInt_of_nan afp fpcr r exact f op hexp hfrac]
      cases fpcrDN fpcr
      · simp only [Bool.false_eq_true, if_false, BitVec.or_assoc, BitVec.or_self]
      · rfl

/-! ### The active elements of a completed instruction -/

section
variable {i : Instr} {f : Format} {s : State} {e : Nat}

/-- An active element of the destination, with the intended `FPRoundInt` (R69, D16). -/
theorem laneOf_completed_active (hint : HasIntendedRoundInt s.cfg) (he : e < elementCount s.cfg f)
    (ha : laneActive s i f e = true) :
    laneOf (completed i f s) i.zd f e =
      (fpRoundInt s.cfg.featAfp s.fpcr (roundingOf i s) (constantsOf i).exact f (laneOf s i.zn f e)).1 := by
  rw [laneOf_completed i f s he, if_pos ha, laneRounded_intended hint]

/-- An inactive element of the destination is kept or zeroed (R69). -/
theorem laneOf_completed_inactive (he : e < elementCount s.cfg f) (ha : laneActive s i f e = false) :
    laneOf (completed i f s) i.zd f e = if (constantsOf i).merging = true then laneOf s i.zd f e else 0#f.width := by
  rw [laneOf_completed i f s he, ha, if_neg Bool.false_ne_true]

/-- An active finite element becomes the element of the integer its unpacked value is rounded to (R69, R98). -/
theorem laneOf_completed_finite (hint : HasIntendedRoundInt s.cfg) (he : e < elementCount s.cfg f)
    (ha : laneActive s i f e = true) (hfin : isFinite f (laneOf s i.zn f e) = true) :
    ∃ k : ℤ, RoundsTo (roundingOf i s) (unpackedValue s.cfg.featAfp s.fpcr f (laneOf s i.zn f e)) k ∧
      Representable f (laneOf s i.zn f e).msb k ∧
      laneOf (completed i f s) i.zd f e = integerElement f (laneOf s i.zn f e).msb k := by
  rw [laneOf_completed_active hint he ha]
  exact fpRoundInt_finite s.cfg.featAfp s.fpcr (roundingOf i s) (constantsOf i).exact hfin

/-- The value of an active finite element: the rounded integer. -/
theorem rationalValue_completed (hint : HasIntendedRoundInt s.cfg) (he : e < elementCount s.cfg f)
    (ha : laneActive s i f e = true) (hfin : isFinite f (laneOf s i.zn f e) = true) :
    ∃ k : ℤ, rationalValue f (laneOf (completed i f s) i.zd f e) = k ∧
      RoundsTo (roundingOf i s) (unpackedValue s.cfg.featAfp s.fpcr f (laneOf s i.zn f e)) k := by
  obtain ⟨k, hround, hrep, hlane⟩ := laneOf_completed_finite hint he ha hfin
  obtain ⟨-, hvalue, -⟩ := integerElement_spec hrep
  exact ⟨k, hlane ▸ hvalue, hround⟩

/-- The Inexact flag after completion (R73, R74, R103). -/
theorem completed_inexact_iff (hint : HasIntendedRoundInt s.cfg) :
    (completed i f s).fpsr.getLsbD 4 = true ↔ s.fpsr.getLsbD 4 = true ∨ (isFrintx i = true ∧
      ∃ e < elementCount s.cfg f, laneActive s i f e = true ∧ isFinite f (laneOf s i.zn f e) = true ∧
        unpackedValue s.cfg.featAfp s.fpcr f (laneOf s i.zn f e) ≠
          ⌊unpackedValue s.cfg.featAfp s.fpcr f (laneOf s i.zn f e)⌋) := by
  have hbit : ∀ c : FpExc, c.cumulativeBit = 4 ↔ c = .inexact := fun c => by cases c <;> decide
  simp only [completed_fpsr_bit_iff, hbit, exists_eq_right, laneRounded_intended hint, inexact_mem_fpRoundInt_iff,
    constantsOf_exact]
  refine or_congr_right ⟨?_, ?_⟩
  · rintro ⟨e, he, ha, hx, hrest⟩
    exact ⟨hx, e, he, ha, hrest⟩
  · rintro ⟨hx, e, he, ha, hrest⟩
    exact ⟨e, he, ha, hx, hrest⟩

end

/-- Settles O10: element by element, an active one by the class of its operand, and the Inexact flag. -/
theorem roundsActiveElementsToIntegral : Obligations.RoundsActiveElementsToIntegral := by
  intro i f s hint hmode hcan
  refine ⟨completed i f s, exec_of_canComplete hcan, fun e he ha hfin => ?_, fun e he ha => ?_,
    fun e he ha => laneOf_completed_inactive he ha, ?_⟩
  · obtain ⟨k, hround, hrep, hlane⟩ := laneOf_completed_finite hint he ha hfin
    obtain ⟨-, hvalue, hfin', -⟩ := integerElement_spec hrep
    rw [hlane, ← roundingOf_intended hmode]
    exact ⟨hfin', k, hvalue, hround⟩
  · rw [laneOf_completed_active hint he ha]
    exact ⟨fun hinf => by rw [fpRoundInt_of_infinity _ _ _ _ f _ hinf], classify_fpRoundInt_nan _ _ _ _⟩
  · simp only [forall_ne_intCast_iff]
    exact completed_inexact_iff hint

/-! ### The seven mnemonics -/

/-- Where an option is an integer function, an instruction that rounds by it gives each active finite element the
function's value. -/
theorem exec_values_of_option {i : Instr} {f : Format} {s : State} {r : Rounding} {g : ℚ → ℤ}
    (hg : ∀ q k, RoundsTo r q k → k = g q) (hint : HasIntendedRoundInt s.cfg) (hcan : CanComplete s i f)
    (hr : roundingOf i s = r) :
    ∃ s', exec i s = .next s' ∧ ∀ e < elementCount s.cfg f, laneActive s i f e = true →
      isFinite f (laneOf s i.zn f e) = true →
      rationalValue f (laneOf s' i.zd f e) = g (unpackedValue s.cfg.featAfp s.fpcr f (laneOf s i.zn f e)) := by
  refine ⟨completed i f s, exec_of_canComplete hcan, fun e he ha hfin => ?_⟩
  obtain ⟨k, hvalue, hround⟩ := rationalValue_completed hint he ha hfin
  rw [hvalue, hg _ k (hr ▸ hround)]

/-- Settles O11: the tie rule is the option's own, and the sign is that of the rounded integer's element. -/
theorem frintnRoundsToNearestEven : Obligations.FrintnRoundsToNearestEven := by
  intro i f s t d g n hi hint hcan
  obtain ⟨hr, rfl, rfl⟩ : roundingOf i s = .tieEven ∧ i.zd = d ∧ i.zn = n := by
    rcases hi with rfl | rfl <;> exact ⟨rfl, rfl, rfl⟩
  refine ⟨completed i f s, exec_of_canComplete hcan, fun e he ha hfin => ?_⟩
  obtain ⟨k, hround, hrep, hlane⟩ := laneOf_completed_finite hint he ha hfin
  obtain ⟨hmsb, hvalue, -⟩ := integerElement_spec hrep
  rw [hr] at hround
  rw [hlane]
  exact ⟨k, hvalue, hround.1, hround.2, hmsb⟩

/-- Settles O12: the integer function of nearest with ties away. -/
theorem frintaRoundsTiesAway : Obligations.FrintaRoundsTiesAway := by
  intro i f s t d g n hi hint hcan
  obtain ⟨hr, rfl, rfl⟩ : roundingOf i s = .tieAway ∧ i.zd = d ∧ i.zn = n := by
    rcases hi with rfl | rfl <;> exact ⟨rfl, rfl, rfl⟩
  simpa only [apply_ite (Int.cast (R := ℚ))] using
    exec_values_of_option (fun _ _ => eq_of_roundsTo_tieAway) hint hcan hr

/-- Settles O13: the integer function of rounding down is the floor. -/
theorem frintmTakesTheFloor : Obligations.FrintmTakesTheFloor := by
  intro i f s t d g n hi hint hcan
  obtain ⟨hr, rfl, rfl⟩ : roundingOf i s = .negInf ∧ i.zd = d ∧ i.zn = n := by
    rcases hi with rfl | rfl <;> exact ⟨rfl, rfl, rfl⟩
  exact exec_values_of_option (fun _ _ => roundsTo_negInf_iff.mp) hint hcan hr

/-- Settles O14: the integer function of rounding up is the ceiling. -/
theorem frintpTakesTheCeiling : Obligations.FrintpTakesTheCeiling := by
  intro i f s t d g n hi hint hcan
  obtain ⟨hr, rfl, rfl⟩ : roundingOf i s = .posInf ∧ i.zd = d ∧ i.zn = n := by
    rcases hi with rfl | rfl <;> exact ⟨rfl, rfl, rfl⟩
  exact exec_values_of_option (fun _ _ => roundsTo_posInf_iff.mp) hint hcan hr

/-- Settles O15: below magnitude 1 the integer is 0, whose element is the zero of the operand's sign. -/
theorem frintzTruncates : Obligations.FrintzTruncates := by
  intro i f s t d g n hi hint hcan
  obtain ⟨hr, rfl, rfl⟩ : roundingOf i s = .zero ∧ i.zd = d ∧ i.zn = n := by
    rcases hi with rfl | rfl <;> exact ⟨rfl, rfl, rfl⟩
  refine ⟨completed i f s, exec_of_canComplete hcan, fun e he ha hfin => ?_⟩
  obtain ⟨k, hround, hrep, hlane⟩ := laneOf_completed_finite hint he ha hfin
  obtain ⟨-, hvalue, -⟩ := integerElement_spec hrep
  rw [hr] at hround
  rw [hlane]
  refine ⟨?_, fun hsmall => ?_⟩
  · rw [hvalue, ← apply_ite Int.cast, ← eq_of_roundsTo_zero hround]
  · rw [integerElement, if_pos (eq_zero_of_roundsTo_zero hround hsmall)]

/-- The mode each value of RMode holds (R97). -/
theorem fpRoundingMode_of_rmode (fpcr : Word64) :
    (fpcrRMode fpcr = 0b00#2 → fpRoundingMode fpcr = .tieEven) ∧
    (fpcrRMode fpcr = 0b01#2 → fpRoundingMode fpcr = .posInf) ∧
    (fpcrRMode fpcr = 0b10#2 → fpRoundingMode fpcr = .negInf) ∧
    (fpcrRMode fpcr = 0b11#2 → fpRoundingMode fpcr = .zero) := by
  refine ⟨fun h => ?_, fun h => ?_, fun h => ?_, fun h => ?_⟩ <;> rw [fpRoundingMode, h] <;> rfl

/-- Settles O16: the option is the mode of RMode, and only FRINTX sets the Inexact flag. -/
theorem frintiUsesTheCurrentMode : Obligations.FrintiUsesTheCurrentMode := by
  intro i f s t d g n hi hint hmode hcan
  obtain ⟨hr, hx, rfl, rfl⟩ : roundingOf i s = fpRoundingMode s.fpcr ∧ isFrintx i = false ∧ i.zd = d ∧ i.zn = n := by
    rcases hi with rfl | rfl <;> exact ⟨hmode _, rfl, rfl, rfl⟩
  have hexec := exec_of_canComplete hcan
  refine ⟨completed i f s, hexec, inexactFlagOnlyFromFrintx i s _ hint hx hexec, fun e he ha hfin => ?_⟩
  obtain ⟨k, hvalue, hround⟩ := rationalValue_completed hint he ha hfin
  obtain ⟨h00, h01, h10, h11⟩ := fpRoundingMode_of_rmode s.fpcr
  rw [hr] at hround
  exact ⟨k, hvalue, fun h => h00 h ▸ hround, fun h => roundsTo_posInf_iff.mp (h01 h ▸ hround),
    fun h => roundsTo_negInf_iff.mp (h10 h ▸ hround), fun h => h11 h ▸ hround⟩

/-- Settles O17: the values as for FRINTI, and FRINTX is the one that sets the Inexact flag. -/
theorem frintxSignalsInexact : Obligations.FrintxSignalsInexact := by
  intro i f s t d g n hi hint hmode hcan
  obtain ⟨hr, hx, rfl, rfl⟩ : roundingOf i s = fpRoundingMode s.fpcr ∧ isFrintx i = true ∧ i.zd = d ∧ i.zn = n := by
    rcases hi with rfl | rfl <;> exact ⟨hmode _, rfl, rfl, rfl⟩
  refine ⟨completed i f s, exec_of_canComplete hcan, ?_, fun e he ha hfin => ?_⟩
  · simpa only [hx, true_and] using completed_inexact_iff (i := i) (f := f) hint
  · rw [← hr]
    exact rationalValue_completed hint he ha hfin

/-! ### Enabled traps -/

/-- Settles O22: the refusal carries the Operation's conditions, which are those of the active elements. -/
theorem enabledTrapIsRefused : Obligations.EnabledTrapIsRefused := by
  intro i f s hr ht
  exact ⟨_, by rw [exec_of_reaches hr, if_pos ht], mem_operationOf i f s⟩

/-! ### Instructions with the same operands -/

/-- Two instructions with the same size, operands and predication. -/
structure SameOperands (i j : Instr) : Prop where
  size : i.size = j.size
  zd : i.zd = j.zd
  pg : i.pg = j.pg
  zn : i.zn = j.zn
  merging : (constantsOf i).merging = (constantsOf j).merging

section
variable {i j : Instr} {f : Format} {s : State}

/-- Two instructions with the same operands, the same rounding and the same `exact` have the same outcome where they
are not UNDEFINED. -/
theorem exec_eq_of_sameOperands (h : SameOperands i j) (hu : isUndefined i s.cfg = false)
    (hexact : (constantsOf i).exact = (constantsOf j).exact) (hr : roundingOf i s = roundingOf j s) :
    exec i s = exec j s := by
  rw [exec_eq_frint, exec_eq_frint, ← h.size, ← h.zd, ← h.pg, ← h.zn]
  refine frint_congr _ _ _ _ _ _ _ _ ?_ hexact h.merging hr _
  simpa [isUndefined] using hu

theorem laneActive_of_sameOperands (h : SameOperands i j) (e : Nat) : laneActive s i f e = laneActive s j f e := by
  simp only [laneActive, h.pg]

/-- With the intended `FPRoundInt`, an element's result does not depend on `exact`, nor do its conditions other than
Inexact. -/
theorem laneRounded_of_sameOperands (h : SameOperands i j) (hint : HasIntendedRoundInt s.cfg)
    (hr : roundingOf i s = roundingOf j s) (e : Nat) :
    (laneRounded s i f e).1 = (laneRounded s j f e).1 ∧
      ∀ c ≠ FpExc.inexact, c ∈ (laneRounded s i f e).2 ↔ c ∈ (laneRounded s j f e).2 := by
  rw [laneRounded_intended hint, laneRounded_intended hint, hr, h.zn]
  exact fpRoundInt_exact_congr _ _ _ _ _ _ _

/-- The Operation's result does not depend on `exact`. -/
theorem operationOf_fst_of_sameOperands (h : SameOperands i j) (hint : HasIntendedRoundInt s.cfg)
    (hr : roundingOf i s = roundingOf j s) : (operationOf i f s).1 = (operationOf j f s).1 := by
  refine eq_of_elem_eq s.cfg f (lowBits_operationOf i f s) (lowBits_operationOf j f s) fun e he => ?_
  rw [elem_operationOf i f s he, elem_operationOf j f s he, laneActive_of_sameOperands h,
    (laneRounded_of_sameOperands h hint hr e).1, h.merging, h.zd]

/-- No condition but Inexact depends on `exact`. -/
theorem mem_operationOf_of_sameOperands (h : SameOperands i j) (hint : HasIntendedRoundInt s.cfg)
    (hr : roundingOf i s = roundingOf j s) {c : FpExc} (hc : c ≠ .inexact) :
    c ∈ (operationOf i f s).2 ↔ c ∈ (operationOf j f s).2 := by
  simp only [mem_operationOf, laneActive_of_sameOperands h, (laneRounded_of_sameOperands h hint hr _).2 c hc]

/-- Without `exact` Inexact is not signalled. -/
theorem ne_inexact_of_mem_operationOf (hint : HasIntendedRoundInt s.cfg) (hexact : (constantsOf j).exact = false)
    {c : FpExc} (hc : c ∈ (operationOf j f s).2) : c ≠ .inexact := by
  rintro rfl
  rcases mem_operationOf_intended hint hc with h | h | ⟨-, h⟩
  · cases h
  · cases h
  · rw [hexact] at h
    cases h

/-- An instruction without `exact` completes where one with the same operands and rounding does: it signals no condition
the other does not signal. -/
theorem canComplete_of_sameOperands (h : SameOperands i j) (hint : HasIntendedRoundInt s.cfg)
    (hr : roundingOf i s = roundingOf j s) (hexact : (constantsOf j).exact = false) (hcan : CanComplete s i f) :
    CanComplete s j f := by
  obtain ⟨⟨hfeat, hf, hsve⟩, htrap, hpc⟩ := hcan
  refine ⟨⟨h.merging ▸ hfeat, h.size ▸ hf, hsve⟩, fun ht => htrap ?_, hpc⟩
  rw [← fpTrapTaken_iff, fpTrapTaken, Bool.and_eq_true, List.any_eq_true] at ht ⊢
  obtain ⟨htraps, c, hc, hen⟩ := ht
  have hne := ne_inexact_of_mem_operationOf hint hexact hc
  exact ⟨htraps, c, (mem_operationOf_of_sameOperands h hint hr hne).mpr hc, hen⟩

/-- The states two instructions with the same operands and rounding leave differ at most in the Inexact flag. -/
theorem completed_of_sameOperands (h : SameOperands i j) (hint : HasIntendedRoundInt s.cfg)
    (hr : roundingOf i s = roundingOf j s) :
    { completed i f s with fpsr := (completed j f s).fpsr } = completed j f s ∧
      ∀ k, k ≠ 4 → (completed i f s).fpsr.getLsbD k = (completed j f s).fpsr.getLsbD k := by
  constructor
  · simp only [completed, orFpsr, writeZ, operationOf_fst_of_sameOperands h hint hr, h.zd]
  · intro k hk
    have hflags : (fpFlags (operationOf i f s).2).getLsbD k = (fpFlags (operationOf j f s).2).getLsbD k := by
      rw [Bool.eq_iff_iff, getLsbD_fpFlags, getLsbD_fpFlags]
      refine exists_congr fun c => and_congr_left fun hc => mem_operationOf_of_sameOperands h hint hr ?_
      rintro rfl
      exact hk hc.symm
    rw [completed_fpsr, completed_fpsr, BitVec.getLsbD_or, BitVec.getLsbD_or, hflags]

/-- Two instructions with the same operands and rounding, the second without `exact`: where the first completes, so does
the second, and the states differ at most in the Inexact flag. -/
theorem exec_of_sameOperands (h : SameOperands i j) (hint : HasIntendedRoundInt s.cfg)
    (hr : roundingOf i s = roundingOf j s) (hexact : (constantsOf j).exact = false) (hcan : CanComplete s i f) :
    ∃ a b, exec i s = .next a ∧ exec j s = .next b ∧ { a with fpsr := b.fpsr } = b ∧
      ∀ k, k ≠ 4 → a.fpsr.getLsbD k = b.fpsr.getLsbD k :=
  ⟨completed i f s, completed j f s, exec_of_canComplete hcan,
    exec_of_canComplete (canComplete_of_sameOperands h hint hr hexact hcan), completed_of_sameOperands h hint hr⟩

end

/-- Settles O41: FRINTX and FRINTI take their rounding from the same FPCR and differ in `exact`. -/
theorem frintxIsFrintiButForInexact : Obligations.FrintxIsFrintiButForInexact := by
  intro s f t d g n hint
  exact ⟨exec_of_sameOperands ⟨rfl, rfl, rfl, rfl, rfl⟩ hint rfl rfl,
    exec_of_sameOperands ⟨rfl, rfl, rfl, rfl, rfl⟩ hint rfl rfl⟩

/-- The instruction of a fixed rounding option (R66). -/
def fixedInstr (merging : Bool) (t : Size) (d : Fin 32) (g : Fin 8) (n : Fin 32) : Rounding → Instr
  | .tieEven => if merging then .frintnM t d g n else .frintnZ t d g n
  | .tieAway => if merging then .frintaM t d g n else .frintaZ t d g n
  | .zero => if merging then .frintzM t d g n else .frintzZ t d g n
  | .negInf => if merging then .frintmM t d g n else .frintmZ t d g n
  | .posInf => if merging then .frintpM t d g n else .frintpZ t d g n

/-- The parts and decode constants of the fixed instruction. -/
theorem fixedInstr_spec (merging : Bool) (t : Size) (d : Fin 32) (g : Fin 8) (n : Fin 32) (r : Rounding) :
    (fixedInstr merging t d g n r).size = t ∧ (fixedInstr merging t d g n r).zd = d ∧
      (fixedInstr merging t d g n r).pg = g ∧ (fixedInstr merging t d g n r).zn = n ∧
      constantsOf (fixedInstr merging t d g n r) = ⟨false, .fixed r, merging⟩ := by
  cases merging <;> cases r <;> exact ⟨rfl, rfl, rfl, rfl, rfl⟩

/-- An instruction with the decode constants of FRINTI has, where it is not UNDEFINED, the outcome of the fixed
instruction of the mode RMode holds (R97). -/
theorem exec_eq_fixedInstr {i : Instr} {s : State} {merging : Bool} (hmode : HasIntendedMode s.cfg)
    (hi : constantsOf i = ⟨false, .fromFpcr, merging⟩) (hu : isUndefined i s.cfg = false) :
    exec i s = exec (fixedInstr merging i.size i.zd i.pg i.zn (fpRoundingMode s.fpcr)) s := by
  obtain ⟨hsize, hzd, hpg, hzn, hj⟩ := fixedInstr_spec merging i.size i.zd i.pg i.zn (fpRoundingMode s.fpcr)
  refine exec_eq_of_sameOperands ⟨hsize.symm, hzd.symm, hpg.symm, hzn.symm, ?_⟩ hu ?_ ?_
  · rw [hi, hj]
  · rw [hi, hj]
  · rw [roundingOf, roundingOf, hi, hj]
    exact hmode s.fpcr

/-- Where FRINTX completes, it leaves the vector registers FRINTI leaves, and so those of the fixed instruction. -/
theorem exec_frintx_fixedInstr {i j : Instr} {f : Format} {s : State} {merging : Bool} (h : SameOperands i j)
    (hint : HasIntendedRoundInt s.cfg) (hmode : HasIntendedMode s.cfg) (hr : roundingOf i s = roundingOf j s)
    (hj : constantsOf j = ⟨false, .fromFpcr, merging⟩) (hcan : CanComplete s i f) :
    ∃ a b, exec i s = .next a ∧ a.z = b.z ∧
      .next b = exec (fixedInstr merging j.size j.zd j.pg j.zn (fpRoundingMode s.fpcr)) s := by
  have hcan' : CanComplete s j f := canComplete_of_sameOperands h hint hr (by rw [hj]) hcan
  obtain ⟨hfeat, hf, -⟩ := hcan'.1
  refine ⟨completed i f s, completed j f s, exec_of_canComplete hcan, ?_, ?_⟩
  · rw [← (completed_of_sameOperands h hint hr).1]
  · rw [← exec_eq_fixedInstr hmode hj (isUndefined_eq_false_of_format hfeat hf), exec_of_canComplete hcan']

/-- The outcome of the fixed instruction of the mode RMode holds, by RMode (R97). -/
theorem exec_fixedInstr_by_rmode (s : State) (t : Size) (d : Fin 32) (g : Fin 8) (n : Fin 32) (merging : Bool) :
    exec (fixedInstr merging t d g n (fpRoundingMode s.fpcr)) s =
      if fpcrRMode s.fpcr = 0b00#2 then exec (fixedInstr merging t d g n .tieEven) s
      else if fpcrRMode s.fpcr = 0b01#2 then exec (fixedInstr merging t d g n .posInf) s
      else if fpcrRMode s.fpcr = 0b10#2 then exec (fixedInstr merging t d g n .negInf) s
      else exec (fixedInstr merging t d g n .zero) s := by
  unfold fpRoundingMode
  split_ifs <;> rfl

/-- Settles O40: FRINTI is the fixed instruction of the mode, and FRINTX leaves the vector registers of FRINTI. -/
theorem currentModeIsTheFixedInstruction : Obligations.CurrentModeIsTheFixedInstruction := by
  intro s t d g n hmode
  have hM := exec_fixedInstr_by_rmode s t d g n true
  have hZ := exec_fixedInstr_by_rmode s t d g n false
  refine ⟨fun hu => (exec_eq_fixedInstr hmode rfl hu).trans hM, fun hu => (exec_eq_fixedInstr hmode rfl hu).trans hZ,
    fun f hint hcan => ?_, fun f hint hcan => ?_⟩
  · obtain ⟨a, b, ha, hz, hb⟩ := exec_frintx_fixedInstr (i := .frintxM t d g n) (j := .frintiM t d g n)
      ⟨rfl, rfl, rfl, rfl, rfl⟩ hint hmode rfl rfl hcan
    exact ⟨a, b, ha, hz, hb.trans hM⟩
  · obtain ⟨a, b, ha, hz, hb⟩ := exec_frintx_fixedInstr (i := .frintxZ t d g n) (j := .frintiZ t d g n)
      ⟨rfl, rfl, rfl, rfl, rfl⟩ hint hmode rfl rfl hcan
    exact ⟨a, b, ha, hz, hb.trans hZ⟩

/-! ### Instructions that change nothing -/

section
variable {i : Instr} {f : Format} {s : State}

/-- An instruction that signals no condition completes, and changes its destination and `pc` alone. -/
theorem exec_of_no_condition (hr : Reaches s i f) (hpc : s.pc.toNat + 4 < 2 ^ 64) (hnil : (operationOf i f s).2 = []) :
    exec i s = .next { s with z := s.z.set i.zd.val (operationOf i f s).1, pc := s.pc + 4#64 } := by
  have htrap : ¬ TrapTaken s i f := by
    rw [← fpTrapTaken_iff, hnil, fpTrapTaken, List.any_nil, Bool.and_false]
    exact Bool.false_ne_true
  rw [exec_of_canComplete ⟨hr, htrap, hpc⟩]
  simp only [completed, orFpsr, writeZ, lowBits_operationOf, hnil, fpFlags, BitVec.or_zero]

/-- With no active element the Operation's result is the vector it starts from, with no condition (R72 item 1). -/
theorem operationOf_of_no_active (h : ∀ e < elementCount s.cfg f, laneActive s i f e = false) :
    operationOf i f s = (if (constantsOf i).merging then readZ s i.zd else 0#2048, []) :=
  roundLoop_none _ _ _ _ _ _ fun e he => (readP_active s i f he).trans (h e he)

/-- An active element of a completed instruction in place, rounded again, is as it is, with no condition. -/
theorem laneRounded_completed {e : Nat} (hint : HasIntendedRoundInt s.cfg) (hin : i.zd = i.zn)
    (he : e < elementCount s.cfg f) (ha : laneActive s i f e = true) :
    laneRounded (completed i f s) i f e = (laneOf (completed i f s) i.zd f e, []) := by
  have hint' : HasIntendedRoundInt (completed i f s).cfg := hint
  rw [laneRounded_intended hint', ← hin, laneOf_completed_active hint he ha]
  exact fpRoundInt_fpRoundInt _ _ _ _ _ _ _ _

/-- The Operation of an instruction in place, on the state it left, has the same result, with no condition. -/
theorem operationOf_completed (hint : HasIntendedRoundInt s.cfg) (hin : i.zd = i.zn) :
    operationOf i f (completed i f s) = ((operationOf i f s).1, []) := by
  have hact : ∀ e, laneActive (completed i f s) i f e = laneActive s i f e := fun _ => rfl
  refine Prod.ext (eq_of_elem_eq s.cfg f (lowBits_operationOf i f (completed i f s))
    (lowBits_operationOf i f s) fun e he => ?_) (List.eq_nil_iff_forall_not_mem.mpr fun c hc => ?_)
  · rw [elem_operationOf i f (completed i f s) he, hact, ← completed_z_dest i f s]
    cases ha : laneActive s i f e
    · rw [if_neg Bool.false_ne_true]
      split
      · rfl
      · next hm => exact ((laneOf_completed_inactive he ha).trans (if_neg hm)).symm
    · rw [if_pos rfl, laneRounded_completed hint hin he ha]
      rfl
  · obtain ⟨e, he, ha, hce⟩ := (mem_operationOf i f _ c).mp hc
    rw [laneRounded_completed hint hin he ha] at hce
    cases hce

end

/-- Settles O42: the second run's Operation gives the destination again and signals nothing. -/
theorem repeatingInPlaceChangesOnlyPc : Obligations.RepeatingInPlaceChangesOnlyPc := by
  intro i f s t hint hin hcan hexec hpc hsve
  rw [exec_of_canComplete hcan] at hexec
  cases hexec
  obtain ⟨hfeat, hf, -⟩ := hcan.1
  have hop := operationOf_completed (f := f) hint hin
  have hr : Reaches (completed i f s) i f := ⟨hfeat, hf, hsve⟩
  rw [exec_of_no_condition hr hpc (congrArg Prod.snd hop), hop, ← completed_z_dest, Vector.set_getElem_self]

/-- Settles O44: the vector the Operation starts from is the destination or zero. -/
theorem noActiveElement : Obligations.NoActiveElement := by
  intro i f s hfit hr hpc hnone
  have hop := operationOf_of_no_active hnone
  rw [exec_of_no_condition hr hpc (congrArg Prod.snd hop), hop]
  split
  · rw [readZ, hfit.1 i.zd, Vector.set_getElem_self]
  · rfl

end Sys2Proof.Machine

/-! Proofs of the numerics family (spec 41_fp_numerics.md): the value, the class, the sign and the conditions of one
element, and the fields of FPCR these depend on. -/

namespace Sys2Proof.Machine

/-! ### The classes of operand -/

/-- An element is finite, an infinity or a NaN (R95): the three cases in which `FPRoundInt` is described. -/
theorem finite_or_infinity_or_nan (f : Format) (op : BitVec f.width) :
    isFinite f op = true ∨ classify f op = .infinity ∨ (classify f op = .qnan ∨ classify f op = .snan) := by
  rw [nan_iff, or_iff_not_imp_left]
  exact infinity_or_nan_of_not_finite

/-- The class of the element of a representable integer (R95, R100). -/
theorem classify_integerElement {f : Format} {sign : Bool} {k : ℤ} (h : Representable f sign k) :
    classify f (integerElement f sign k) = .zero ∨ classify f (integerElement f sign k) = .nonzero := by
  obtain ⟨-, -, hfin, hden⟩ := integerElement_spec h
  exact (classify_finite f _ hfin).imp_right fun hclass => hclass.resolve_left hden

/-! ### Finite operands -/

/-- Settles O31: the result is the element of the rounded integer, whose value is that integer. -/
theorem fpRoundIntRoundsExactly : Obligations.FpRoundIntRoundsExactly := by
  intro afp fpcr r exact f op hfin
  obtain ⟨k, hround, hrep, hres⟩ := fpRoundInt_finite afp fpcr r exact hfin
  obtain ⟨-, hvalue, hfin', -⟩ := integerElement_spec hrep
  rw [hres]
  exact ⟨hfin', k, hvalue, hround⟩

/-! ### NaN operands -/

/-- Quietening sets the top fraction bit and keeps every other bit (R101). -/
theorem getLsbD_quiet (f : Format) (op : BitVec f.width) (b : Nat) :
    (op ||| BitVec.twoPow f.width (f.fracBits - 1)).getLsbD b = (op.getLsbD b || decide (b = f.fracBits - 1)) := by
  have hpos : f.fracBits - 1 < f.width := by cases f <;> decide
  simp only [BitVec.getLsbD_or, BitVec.getLsbD_twoPow, hpos, decide_true, Bool.true_and, eq_comm]

/-- Settles O32: with DN 0 the operand quietened, with DN 1 the Default NaN. -/
theorem fpRoundIntOfNaN : Obligations.FpRoundIntOfNaN := by
  intro afp fpcr r exact f op hexp hfrac
  rw [fpRoundInt_of_nan afp fpcr r exact f op hexp hfrac]
  refine ⟨rfl, fun hdn b => ?_, fun hdn => ?_⟩ <;> rw [hdn]
  · exact getLsbD_quiet f op b
  · exact defaultNaN_fields afp fpcr f

/-- A signalling NaN signals Invalid Operation, and a quiet one nothing (R101). -/
theorem fpRoundInt_conditions_of_nan (afp : Bool) (fpcr : Word64) (r : Rounding) (exact : Bool) {f : Format}
    {op : BitVec f.width} (h : classify f op = .qnan ∨ classify f op = .snan) :
    (fpRoundInt afp fpcr r exact f op).2 = if classify f op = .snan then [.invalidOp] else [] := by
  obtain ⟨hexp, hfrac⟩ := (nan_iff f op).mp h
  rw [fpRoundInt_of_nan afp fpcr r exact f op hexp hfrac, classify_nan f op hexp hfrac]
  cases op.getLsbD (f.fracBits - 1) <;> rfl

/-! ### The conditions of one element -/

/-- A Zero signals nothing: its value is the integer 0 (R98). -/
theorem fpRoundInt_conditions_of_zero (afp : Bool) (fpcr : Word64) (r : Rounding) (exact : Bool) {f : Format}
    {op : BitVec f.width} (h : classify f op = .zero) : (fpRoundInt afp fpcr r exact f op).2 = [] := by
  have hfl : isFlushed afp fpcr f op = false := by simp [isFlushed, h]
  have herr : (exactValue f op).error = 0 := (roundedInt_of_num_zero r _ (exactValue_of_zero f op h)).2
  rw [fpRoundInt_of_finite afp fpcr r exact f op (finite_of_class f op (.inl h)) hfl]
  exact if_neg fun hinexact => hinexact.1 herr

/-- When flushing signals Input Denormal (R96). -/
theorem flushSetsInputDenorm_iff (afp : Bool) (fpcr : Word64) (f : Format) :
    flushSetsInputDenorm afp fpcr f = true ↔ f ≠ .half ∧ fpcrFZ fpcr = true ∧ (afp && fpcrAH fpcr) = false := by
  cases f
  case half => exact iff_of_false Bool.false_ne_true fun h => h.1 rfl
  case single | double =>
    simp only [flushSetsInputDenorm, altFp, Bool.and_eq_true, Bool.not_eq_true', ne_eq, reduceCtorEq, not_false_eq_true,
      true_and]

/-- Settles O34: the conditions class by class. -/
theorem conditionsOfOneElement : Obligations.ConditionsOfOneElement := by
  intro afp fpcr r exact f op
  refine ⟨fun hsnan => ?_, ?_, fun hfl => ?_, fun hfin hfl => ?_⟩
  · rw [fpRoundInt_conditions_of_nan afp fpcr r exact (.inr hsnan), if_pos hsnan]
  · rintro (hqnan | hinf | hzero)
    · rw [fpRoundInt_conditions_of_nan afp fpcr r exact (.inl hqnan), hqnan]
      rfl
    · rw [fpRoundInt_of_infinity afp fpcr r exact f op hinf]
    · exact fpRoundInt_conditions_of_zero afp fpcr r exact hzero
  · rw [fpRoundInt_of_flushed afp fpcr r exact f op hfl]
    exact if_congr (flushSetsInputDenorm_iff afp fpcr f) rfl rfl
  · rw [fpRoundInt_of_finite afp fpcr r exact f op hfin hfl]
    exact if_congr (by rw [ne_eq, error_eq_zero_iff, and_comm]) rfl rfl

/-! ### The sign and the class of a result -/

/-- Settles O35: the rounded integer has the operand's sign, and quietening keeps it. -/
theorem signOfTheOperandIsKept : Obligations.SignOfTheOperandIsKept := by
  intro afp fpcr r exact f op hkept
  rcases finite_or_infinity_or_nan f op with hfin | hinf | hnan
  · obtain ⟨k, -, hrep, hres⟩ := fpRoundInt_finite afp fpcr r exact hfin
    rw [hres]
    exact (integerElement_spec hrep).1
  · rw [fpRoundInt_of_infinity afp fpcr r exact f op hinf]
  · have hdn : fpcrDN fpcr = false := hkept.resolve_right fun hne => hnan.elim hne.1 hne.2
    obtain ⟨hexp, hfrac⟩ := (nan_iff f op).mp hnan
    rw [fpRoundInt_of_nan afp fpcr r exact f op hexp hfrac, hdn]
    exact (quiet_fields f op).1

/-- The class of a result (R98, R100, R101). -/
theorem classify_fpRoundInt (afp : Bool) (fpcr : Word64) (r : Rounding) (exact : Bool) (f : Format)
    (op : BitVec f.width) :
    classify f (fpRoundInt afp fpcr r exact f op).1 ∈ [FpType.zero, .nonzero, .infinity, .qnan] := by
  rcases finite_or_infinity_or_nan f op with hfin | hinf | hnan
  · obtain ⟨k, -, hrep, hres⟩ := fpRoundInt_finite afp fpcr r exact hfin
    rw [hres]
    rcases classify_integerElement hrep with h | h <;> rw [h] <;> decide
  · rw [fpRoundInt_of_infinity afp fpcr r exact f op hinf, hinf]
    decide
  · rw [classify_fpRoundInt_nan afp fpcr r exact hnan]
    decide

/-- Settles O36: neither class is among those of a result. -/
theorem resultIsNeverDenormalOrSignalling : Obligations.ResultIsNeverDenormalOrSignalling := by
  intro afp fpcr r exact f op
  have hclass := classify_fpRoundInt afp fpcr r exact f op
  refine ⟨fun h => ?_, fun h => ?_, fun c hc => (mem_fpRoundInt_conditions hc).imp_right (Or.imp_right And.left)⟩ <;>
    rw [h] at hclass <;> exact absurd hclass (by decide)

/-- Settles O38: an integral result is its own rounding, and an infinity and a quiet NaN are returned as they are. -/
theorem roundingAResultAgainChangesNothing : Obligations.RoundingAResultAgainChangesNothing :=
  fpRoundInt_fpRoundInt

/-! ### The fields of FPCR that are read -/

/-- `FPRoundInt` reads FPCR through DN, whether a Denormal is flushed, whether that signals Input Denormal, and the sign
of the Default NaN (R96, R101). -/
theorem fpRoundInt_congr_fpcr {afp : Bool} {a b : Word64} {f : Format} (hdn : fpcrDN a = fpcrDN b)
    (halt : altFp afp a = altFp afp b) (hflush : flushesDenormal afp a f = flushesDenormal afp b f)
    (hset : flushSetsInputDenorm afp a f = flushSetsInputDenorm afp b f) (r : Rounding) (exact : Bool)
    (op : BitVec f.width) : fpRoundInt afp a r exact f op = fpRoundInt afp b r exact f op := by
  simp only [fpRoundInt, unpackType, unpackConditions, fpProcessNaN, fpDefaultNaN, hdn, halt, hflush, hset]

/-- Settles O37: what `FPRoundInt` reads of FPCR depends on the five fields, and on AH and FIZ with FEAT_AFP only. -/
theorem fpRoundIntReadsFiveFields : Obligations.FpRoundIntReadsFiveFields := by
  intro afp a b r exact f op hdn hfz hfz16 hafp
  obtain ⟨halt, hfiz⟩ : altFp afp a = altFp afp b ∧ (afp && fpcrFIZ a) = (afp && fpcrFIZ b) := by
    cases afp
    · exact ⟨rfl, rfl⟩
    · exact hafp rfl
  refine fpRoundInt_congr_fpcr hdn halt ?_ ?_ r exact op
  · simp only [flushesDenormal, hfz, hfz16, halt, hfiz]
  · simp only [flushSetsInputDenorm, hfz, halt]

/-! ### RMode -/

/-- `FPRoundingMode` never gives ties away (R97). -/
theorem fpRoundingMode_ne_tieAway (fpcr : Word64) : fpRoundingMode fpcr ≠ .tieAway := by
  unfold fpRoundingMode
  split_ifs <;> decide

/-- The mnemonics other than FRINTI and FRINTX have a fixed rounding option (R65, R66). -/
theorem usesCurrentMode_eq_false_iff (i : Instr) :
    usesCurrentMode i = false ↔ ∃ r, (constantsOf i).rounding = .fixed r := by
  cases i <;> simp [usesCurrentMode, constantsOf]

/-- An instruction with a fixed rounding option has it in every state. -/
theorem roundingOf_congr {i : Instr} (h : usesCurrentMode i = false) (s s' : State) :
    roundingOf i s' = roundingOf i s := by
  obtain ⟨r, hr⟩ := (usesCurrentMode_eq_false_iff i).mp h
  rw [roundingOf, roundingOf, hr]
  rfl

/-- No trap enable bit lies in RMode (R23, R102). -/
theorem fpTrapTaken_congr_rmode (c : Config) {a b : Word64} (h : ∀ k, k ≠ 22 → k ≠ 23 → a.getLsbD k = b.getLsbD k)
    (l : List FpExc) : fpTrapTaken c a l = fpTrapTaken c b l := by
  have hbit : ∀ e : FpExc, a.getLsbD e.enableBit = b.getLsbD e.enableBit := fun e =>
    h e.enableBit (by cases e <;> decide) (by cases e <;> decide)
  simp only [fpTrapTaken, hbit]

/-- Settles O39: a fixed option does not ask `FPRoundingMode`, and neither the intended `FPRoundInt` nor the traps read
RMode. -/
theorem rModeSelectsTheCurrentMode : Obligations.RModeSelectsTheCurrentMode := by
  refine ⟨fun fpcr => ?_, fun i s v hi hsve => ?_, fun i s fpcr hint hi hbits hsve => ?_⟩
  · obtain ⟨h00, h01, h10, h11⟩ := fpRoundingMode_of_rmode fpcr
    exact ⟨h00, h01, h10, h11, fpRoundingMode_ne_tieAway fpcr⟩
  · refine exec_map i s { s with cfg := { s.cfg with fpRoundingMode := v } }
      (fun t => { t with cfg := { t.cfg with fpRoundingMode := v } }) (fun _ => rfl) hsve (fun _ => rfl) (fun f _ => ?_)
      (fun _ => rfl) Iff.rfl (fun f hop => by simp only [completed, hop]; rfl)
    refine operationOf_congr i f _ _ rfl rfl rfl ?_
    rw [roundingOf_congr hi s]
    rfl
  · refine exec_map i s { s with fpcr := fpcr } (fun t => { t with fpcr := fpcr }) (fun _ => rfl) hsve
      (fpTrapTaken_congr_rmode s.cfg hbits) (fun f _ => ?_) (fun _ => rfl) Iff.rfl
      (fun f hop => by simp only [completed, hop]; rfl)
    refine operationOf_congr i f _ _ rfl rfl rfl (funext fun op => ?_)
    rw [roundingOf_congr hi s, hint, hint]
    exact fpRoundIntReadsFiveFields _ _ _ _ _ _ _ (hbits 25 (by decide) (by decide)) (hbits 24 (by decide) (by decide))
      (hbits 19 (by decide) (by decide)) fun _ => ⟨hbits 1 (by decide) (by decide), hbits 0 (by decide) (by decide)⟩

end Sys2Proof.Machine

/-! Proofs of the exceptions family (spec 60_exceptions.md): the order of UNDEFINED and the access trap, and the stop
after a raise. -/

namespace Sys2Proof.Machine

/-- Settles O6: UNDEFINED ends an instruction before `CheckSVEEnabled()` is asked (R113), and otherwise its trap does
(R108); both raises set the mark alone (R114). -/
theorem accessTrapIsRaisedAfterUndefined : Obligations.AccessTrapIsRaisedAfterUndefined := by
  intro i s k hk
  cases hu : isUndefined i s.cfg with
  | true => exact exec_of_undefined hu
  | false => exact exec_of_accessTrap hu hk

/-- Settles O28: the mark alone stops the next fetch (R114), whichever step set it. -/
theorem noStepAfterARaise : Obligations.NoStepAfterARaise :=
  fun _ _ _ _ hmark => step_of_fetch_error (fetch_of_mark hmark)

end Sys2Proof.Machine
